-- ==== Sys2Proof/Word.lean ====
section
/-! DEFINITION. The word types of the machine: the widths rules R6 and R20 fix. -/

namespace Sys2Proof

/-- An 8-bit value: a general register, a timer, a memory cell (R6 REG_W, TIMER_W; R51). -/
abbrev Byte := BitVec 8

/-- A 16-bit value: the index register, the program counter, a stack slot, an instruction word
(R6 I_W, PC_W, STACK_W; R80). -/
abbrev Word16 := BitVec 16

/-- The number of a general register V0 to VF (R21: "opcode decode always yields a 4-bit index"). -/
abbrev Reg := Fin 16

/-- A key identifier 0x0 to 0xF (R6 NKEYS, R33). -/
abbrev KeyId := Fin 16

/-- VF, the register that doubles as the machine's one flag (R22). -/
abbrev regF : Reg := 15

/-- V0, the register `Bnnn` adds (R113). -/
abbrev reg0 : Reg := 0

end Sys2Proof
end

