-- ==== Sys2Proof/Syntax.lean ====
section
/-! DEFINITION. The instructions: one constructor for each row of spec/opcode_table.json, the 34 instructions of rule
R84 in the table's order and the six no-op rows of rule R86. -/

namespace Sys2Proof

/-- An instruction with its operand fields decoded (R82): register fields `x`, `y` are register numbers, `n` the
number of sprite rows, `kk` the byte immediate, `nnn` the 12-bit address immediate. A no-op-class constructor
carries `op[11:0]`, the bits its word has beside the family nibble, so that no bit of a word is lost. -/
inductive Instr where
  /-- 00E0 `CLS` (R161). -/
  | cls
  /-- 00EE `RET` (R110). -/
  | ret
  /-- 1nnn `JP nnn` (R111). -/
  | jp (nnn : BitVec 12)
  /-- 2nnn `CALL nnn` (R112). -/
  | call (nnn : BitVec 12)
  /-- 3xkk `SE Vx, kk` (R121). -/
  | seImm (x : Reg) (kk : Byte)
  /-- 4xkk `SNE Vx, kk` (R122). -/
  | sneImm (x : Reg) (kk : Byte)
  /-- 5xy0 `SE Vx, Vy` (R123). -/
  | seReg (x y : Reg)
  /-- 6xkk `LD Vx, kk` (R130). -/
  | ldImm (x : Reg) (kk : Byte)
  /-- 7xkk `ADD Vx, kk` (R131). -/
  | addImm (x : Reg) (kk : Byte)
  /-- 8xy0 `LD Vx, Vy` (R132). -/
  | ldReg (x y : Reg)
  /-- 8xy1 `OR Vx, Vy` (R133). -/
  | orReg (x y : Reg)
  /-- 8xy2 `AND Vx, Vy` (R134). -/
  | andReg (x y : Reg)
  /-- 8xy3 `XOR Vx, Vy` (R135). -/
  | xorReg (x y : Reg)
  /-- 8xy4 `ADD Vx, Vy` (R136). -/
  | addReg (x y : Reg)
  /-- 8xy5 `SUB Vx, Vy` (R137). -/
  | sub (x y : Reg)
  /-- 8xy6 `SHR Vx, Vy` (R138); `y` is decoded and has no effect (R88). -/
  | shr (x y : Reg)
  /-- 8xy7 `SUBN Vx, Vy` (R139). -/
  | subn (x y : Reg)
  /-- 8xyE `SHL Vx, Vy` (R140); `y` is decoded and has no effect (R88). -/
  | shl (x y : Reg)
  /-- 9xy0 `SNE Vx, Vy` (R124). -/
  | sneReg (x y : Reg)
  /-- Annn `LD I, nnn` (R150). -/
  | ldI (nnn : BitVec 12)
  /-- Bnnn `JP V0, nnn` (R113). -/
  | jpV0 (nnn : BitVec 12)
  /-- Cxkk `RND Vx, kk` (R142). -/
  | rnd (x : Reg) (kk : Byte)
  /-- Dxyn `DRW Vx, Vy, n` (R162). -/
  | drw (x y : Reg) (n : Fin 16)
  /-- Ex9E `SKP Vx` (R125). -/
  | skp (x : Reg)
  /-- ExA1 `SKNP Vx` (R126). -/
  | sknp (x : Reg)
  /-- Fx07 `LD Vx, DT` (R170). -/
  | ldVxDt (x : Reg)
  /-- Fx0A `LD Vx, K` (R171). -/
  | ldVxK (x : Reg)
  /-- Fx15 `LD DT, Vx` (R172). -/
  | ldDtVx (x : Reg)
  /-- Fx18 `LD ST, Vx` (R173). -/
  | ldStVx (x : Reg)
  /-- Fx1E `ADD I, Vx` (R151). -/
  | addIVx (x : Reg)
  /-- Fx29 `LD F, Vx` (R152). -/
  | ldFVx (x : Reg)
  /-- Fx33 `LD B, Vx` (R153). -/
  | ldBVx (x : Reg)
  /-- Fx55 `LD [I], Vx` (R154). -/
  | ldMemVx (x : Reg)
  /-- Fx65 `LD Vx, [I]` (R156). -/
  | ldVxMem (x : Reg)
  /-- A word of family 0x0 that is no instruction (R86, R104). -/
  | nopClass0 (w : BitVec 12)
  /-- A word of family 0x5 that is no instruction (R86, R104). -/
  | nopClass5 (w : BitVec 12)
  /-- A word of family 0x8 that is no instruction (R86, R104). -/
  | nopClass8 (w : BitVec 12)
  /-- A word of family 0x9 that is no instruction (R86, R104). -/
  | nopClass9 (w : BitVec 12)
  /-- A word of family 0xE that is no instruction (R86, R104). -/
  | nopClassE (w : BitVec 12)
  /-- A word of family 0xF that is no instruction (R86, R104). -/
  | nopClassF (w : BitVec 12)
  deriving DecidableEq, Repr

end Sys2Proof
end

