-- ==== Sys2Proof/WellFormed.lean ====
section
/-! DEFINITION. Which terms of `Instr` stand for an instruction word. The operand types already bound every field
(R82: every value of a field is legal); what is left to check is that a no-op-class term is not one of its family's
instructions (the table of rule R86). -/

namespace Sys2Proof

/-- The sub-operations `op[3:0]` that family 0x8 assigns (R84 rows 10 to 18). -/
def aluSubOps : List (BitVec 4) := [0x0#4, 0x1#4, 0x2#4, 0x3#4, 0x4#4, 0x5#4, 0x6#4, 0x7#4, 0xE#4]

/-- The function bytes `op[7:0]` that family 0xE assigns (R84 rows 24 and 25). -/
def keyFunctions : List Byte := [0x9E#8, 0xA1#8]

/-- The function bytes `op[7:0]` that family 0xF assigns (R84 rows 26 to 34). -/
def miscFunctions : List Byte := [0x07#8, 0x0A#8, 0x15#8, 0x18#8, 0x1E#8, 0x29#8, 0x33#8, 0x55#8, 0x65#8]

/-- Does the term stand for a word? A no-op-class term does so exactly when its bits are none of its family's
instructions (R86). -/
def Instr.wellFormed : Instr → Bool
  | .nopClass0 w => w ≠ 0x0E0#12 && w ≠ 0x0EE#12
  | .nopClass5 w => w.extractLsb' 0 4 ≠ 0#4
  | .nopClass8 w => !aluSubOps.contains (w.extractLsb' 0 4)
  | .nopClass9 w => w.extractLsb' 0 4 ≠ 0#4
  | .nopClassE w => !keyFunctions.contains (w.extractLsb' 0 8)
  | .nopClassF w => !miscFunctions.contains (w.extractLsb' 0 8)
  | .cls | .ret | .jp _ | .call _ | .seImm _ _ | .sneImm _ _ | .seReg _ _ | .ldImm _ _ | .addImm _ _
  | .ldReg _ _ | .orReg _ _ | .andReg _ _ | .xorReg _ _ | .addReg _ _ | .sub _ _ | .shr _ _ | .subn _ _
  | .shl _ _ | .sneReg _ _ | .ldI _ | .jpV0 _ | .rnd _ _ | .drw _ _ _ | .skp _ | .sknp _ | .ldVxDt _
  | .ldVxK _ | .ldDtVx _ | .ldStVx _ | .addIVx _ | .ldFVx _ | .ldBVx _ | .ldMemVx _ | .ldVxMem _ => true

end Sys2Proof
end

