-- ==== Sys2Proof/Decode.lean ====
section
/-! DEFINITION. The decoder (rules R80 to R86), total on every word, and after it the encoder, written from the same
rows of rule R84; the masks and matches of those rows. -/

namespace Sys2Proof

/-! ## Fields (R82) -/

/-- The four bits of a word from bit `lo` up, as a number 0 to 15: the fields x, y, n and the family (R82). -/
def nibbleAt (op : Word16) (lo : Nat) : Fin 16 := ⟨(op.extractLsb' lo 4).toNat, (op.extractLsb' lo 4).isLt⟩

/-- The register field x = op[11:8] (R82). -/
def fieldX (op : Word16) : Reg := nibbleAt op 8

/-- The register field y = op[7:4] (R82). -/
def fieldY (op : Word16) : Reg := nibbleAt op 4

/-- The field n = op[3:0], also the sub-operation selector of format R (R82). -/
def fieldN (op : Word16) : Fin 16 := nibbleAt op 0

/-- The byte field kk = op[7:0], also the function selector of format X (R82). -/
def fieldKK (op : Word16) : Byte := op.extractLsb' 0 8

/-- The address field nnn = op[11:0] (R82). -/
def fieldNNN (op : Word16) : BitVec 12 := op.extractLsb' 0 12

/-! ## Decoding (R84, R85) -/

/-- Family 0x0: the exact words 00E0 and 00EE; every other word is a no-op (R84 rows 1 and 2, R86). -/
def decodeFamily0 (op : Word16) : Instr :=
  if fieldNNN op = 0x0E0#12 then .cls
  else if fieldNNN op = 0x0EE#12 then .ret
  else .nopClass0 (fieldNNN op)

/-- Family 0x5: 5xy0; every other word is a no-op (R84 row 7, R86). -/
def decodeFamily5 (op : Word16) : Instr :=
  if fieldN op = 0x0 then .seReg (fieldX op) (fieldY op) else .nopClass5 (fieldNNN op)

/-- Family 0x8: the nine sub-operations; every other word is a no-op (R84 rows 10 to 18, R86). -/
def decodeFamily8 (op : Word16) : Instr :=
  let x := fieldX op
  let y := fieldY op
  if fieldN op = 0x0 then .ldReg x y
  else if fieldN op = 0x1 then .orReg x y
  else if fieldN op = 0x2 then .andReg x y
  else if fieldN op = 0x3 then .xorReg x y
  else if fieldN op = 0x4 then .addReg x y
  else if fieldN op = 0x5 then .sub x y
  else if fieldN op = 0x6 then .shr x y
  else if fieldN op = 0x7 then .subn x y
  else if fieldN op = 0xE then .shl x y
  else .nopClass8 (fieldNNN op)

/-- Family 0x9: 9xy0; every other word is a no-op (R84 row 19, R86). -/
def decodeFamily9 (op : Word16) : Instr :=
  if fieldN op = 0x0 then .sneReg (fieldX op) (fieldY op) else .nopClass9 (fieldNNN op)

/-- Family 0xE: Ex9E and ExA1; every other word is a no-op (R84 rows 24 and 25, R86). -/
def decodeFamilyE (op : Word16) : Instr :=
  if fieldKK op = 0x9E#8 then .skp (fieldX op)
  else if fieldKK op = 0xA1#8 then .sknp (fieldX op)
  else .nopClassE (fieldNNN op)

/-- Family 0xF: the nine functions; every other word is a no-op (R84 rows 26 to 34, R86). -/
def decodeFamilyF (op : Word16) : Instr :=
  let x := fieldX op
  if fieldKK op = 0x07#8 then .ldVxDt x
  else if fieldKK op = 0x0A#8 then .ldVxK x
  else if fieldKK op = 0x15#8 then .ldDtVx x
  else if fieldKK op = 0x18#8 then .ldStVx x
  else if fieldKK op = 0x1E#8 then .addIVx x
  else if fieldKK op = 0x29#8 then .ldFVx x
  else if fieldKK op = 0x33#8 then .ldBVx x
  else if fieldKK op = 0x55#8 then .ldMemVx x
  else if fieldKK op = 0x65#8 then .ldVxMem x
  else .nopClassF (fieldNNN op)

/-- The instruction of a 16-bit word (R85: "decode the top nibble to select a family"). It never fails: all 16
families are recognized and every word has a meaning (R87, R102). The last arm is the family 0xF, the one value of
four bits that the arms before it leave. -/
def decodeWord (op : Word16) : Instr :=
  match (nibbleAt op 12).val with
  | 0x0 => decodeFamily0 op
  | 0x1 => .jp (fieldNNN op)
  | 0x2 => .call (fieldNNN op)
  | 0x3 => .seImm (fieldX op) (fieldKK op)
  | 0x4 => .sneImm (fieldX op) (fieldKK op)
  | 0x5 => decodeFamily5 op
  | 0x6 => .ldImm (fieldX op) (fieldKK op)
  | 0x7 => .addImm (fieldX op) (fieldKK op)
  | 0x8 => decodeFamily8 op
  | 0x9 => decodeFamily9 op
  | 0xA => .ldI (fieldNNN op)
  | 0xB => .jpV0 (fieldNNN op)
  | 0xC => .rnd (fieldX op) (fieldKK op)
  | 0xD => .drw (fieldX op) (fieldY op) (fieldN op)
  | 0xE => decodeFamilyE op
  | _ => decodeFamilyF op

/-- The word of two bytes, the byte at the lower address first and high (R54, R55). -/
def wordOfBytes (hi lo : Byte) : Word16 := hi ++ lo

/-- Why bytes are no instruction: fewer than the two bytes every instruction has (R80). -/
inductive DecodeError where
  /-- Raised by `decode` on fewer than two bytes; safe: no instruction is read. -/
  | truncated
  deriving DecidableEq, Repr

/-- Decode the first instruction of a byte sequence: the instruction and the bytes after it (R80, R55). -/
def decode : List Byte → Except DecodeError (Instr × List Byte)
  | hi :: lo :: rest => .ok (decodeWord (wordOfBytes hi lo), rest)
  | [_] => .error .truncated
  | [] => .error .truncated

/-- The word that `nbits` bits of the opcode table stand for, its bits above them 0. -/
def tableWord (nbits w : Nat) : Word16 := BitVec.ofNat 16 (w % 2 ^ nbits)

/-- The two bytes of a word as memory stores them, the high byte first (R55). -/
def bytesOfWord (op : Word16) : List Byte := [op.extractLsb' 8 8, op.extractLsb' 0 8]

/-- The instruction the decoder reads from the stored bytes of a word numbered as the opcode table numbers it. -/
def decodeTableWord (nbits w : Nat) : Option Instr :=
  match decode (bytesOfWord (tableWord nbits w)) with
  | .ok (i, _) => some i
  | .error _ => none

/-! ## Encoding (R81, R84) -/

/-- Format A, and a no-op-class word: family nibble, twelve bits (R81). -/
def formatA (family : BitVec 4) (nnn : BitVec 12) : Word16 := family ++ nnn

/-- Formats K and X: family nibble, x, a byte (the immediate kk or the function selector) (R81). -/
def formatK (family : BitVec 4) (x : Reg) (kk : Byte) : Word16 := family ++ (BitVec.ofNat 4 x.val ++ kk)

/-- Formats R and D: family nibble, x, y, a nibble (the sub-operation or n) (R81). -/
def formatR (family : BitVec 4) (x y : Reg) (sub : BitVec 4) : Word16 :=
  family ++ (BitVec.ofNat 4 x.val ++ (BitVec.ofNat 4 y.val ++ sub))

/-- The word of an instruction (R84). -/
def encode : Instr → Word16
  | .cls => 0x00E0#16
  | .ret => 0x00EE#16
  | .jp nnn => formatA 0x1#4 nnn
  | .call nnn => formatA 0x2#4 nnn
  | .seImm x kk => formatK 0x3#4 x kk
  | .sneImm x kk => formatK 0x4#4 x kk
  | .seReg x y => formatR 0x5#4 x y 0x0#4
  | .ldImm x kk => formatK 0x6#4 x kk
  | .addImm x kk => formatK 0x7#4 x kk
  | .ldReg x y => formatR 0x8#4 x y 0x0#4
  | .orReg x y => formatR 0x8#4 x y 0x1#4
  | .andReg x y => formatR 0x8#4 x y 0x2#4
  | .xorReg x y => formatR 0x8#4 x y 0x3#4
  | .addReg x y => formatR 0x8#4 x y 0x4#4
  | .sub x y => formatR 0x8#4 x y 0x5#4
  | .shr x y => formatR 0x8#4 x y 0x6#4
  | .subn x y => formatR 0x8#4 x y 0x7#4
  | .shl x y => formatR 0x8#4 x y 0xE#4
  | .sneReg x y => formatR 0x9#4 x y 0x0#4
  | .ldI nnn => formatA 0xA#4 nnn
  | .jpV0 nnn => formatA 0xB#4 nnn
  | .rnd x kk => formatK 0xC#4 x kk
  | .drw x y n => formatR 0xD#4 x y (BitVec.ofNat 4 n.val)
  | .skp x => formatK 0xE#4 x 0x9E#8
  | .sknp x => formatK 0xE#4 x 0xA1#8
  | .ldVxDt x => formatK 0xF#4 x 0x07#8
  | .ldVxK x => formatK 0xF#4 x 0x0A#8
  | .ldDtVx x => formatK 0xF#4 x 0x15#8
  | .ldStVx x => formatK 0xF#4 x 0x18#8
  | .addIVx x => formatK 0xF#4 x 0x1E#8
  | .ldFVx x => formatK 0xF#4 x 0x29#8
  | .ldBVx x => formatK 0xF#4 x 0x33#8
  | .ldMemVx x => formatK 0xF#4 x 0x55#8
  | .ldVxMem x => formatK 0xF#4 x 0x65#8
  | .nopClass0 w => formatA 0x0#4 w
  | .nopClass5 w => formatA 0x5#4 w
  | .nopClass8 w => formatA 0x8#4 w
  | .nopClass9 w => formatA 0x9#4 w
  | .nopClassE w => formatA 0xE#4 w
  | .nopClassF w => formatA 0xF#4 w

/-- The bytes of an instruction as memory stores them (R55). -/
def encodeBytes (i : Instr) : List Byte := bytesOfWord (encode i)

/-! ## The rows of the opcode map (R84, R86) -/

/-- Is it one of the six no-op rows, which apply only when no instruction row matches (R85, R86)? -/
def Instr.isNopClass : Instr → Bool
  | .nopClass0 _ | .nopClass5 _ | .nopClass8 _ | .nopClass9 _ | .nopClassE _ | .nopClassF _ => true
  | .cls | .ret | .jp _ | .call _ | .seImm _ _ | .sneImm _ _ | .seReg _ _ | .ldImm _ _ | .addImm _ _
  | .ldReg _ _ | .orReg _ _ | .andReg _ _ | .xorReg _ _ | .addReg _ _ | .sub _ _ | .shr _ _ | .subn _ _
  | .shl _ _ | .sneReg _ _ | .ldI _ | .jpV0 _ | .rnd _ _ | .drw _ _ _ | .skp _ | .sknp _ | .ldVxDt _
  | .ldVxK _ | .ldDtVx _ | .ldStVx _ | .addIVx _ | .ldFVx _ | .ldBVx _ | .ldMemVx _ | .ldVxMem _ => false

/-- The column "mask" of the instruction's row (R84; the no-op rows as spec/opcode_table.json gives them). -/
def Instr.mask : Instr → Word16
  | .cls | .ret => 0xFFFF#16
  | .jp _ | .call _ | .seImm _ _ | .sneImm _ _ | .ldImm _ _ | .addImm _ _ | .ldI _ | .jpV0 _ | .rnd _ _
  | .drw _ _ _ | .nopClass0 _ | .nopClass5 _ | .nopClass8 _ | .nopClass9 _ | .nopClassE _ | .nopClassF _ => 0xF000#16
  | .seReg _ _ | .ldReg _ _ | .orReg _ _ | .andReg _ _ | .xorReg _ _ | .addReg _ _ | .sub _ _ | .shr _ _
  | .subn _ _ | .shl _ _ | .sneReg _ _ => 0xF00F#16
  | .skp _ | .sknp _ | .ldVxDt _ | .ldVxK _ | .ldDtVx _ | .ldStVx _ | .addIVx _ | .ldFVx _ | .ldBVx _
  | .ldMemVx _ | .ldVxMem _ => 0xF0FF#16

/-- The column "match" of the instruction's row (R84; the no-op rows as spec/opcode_table.json gives them). -/
def Instr.matchBits : Instr → Word16
  | .cls => 0x00E0#16
  | .ret => 0x00EE#16
  | .jp _ => 0x1000#16
  | .call _ => 0x2000#16
  | .seImm _ _ => 0x3000#16
  | .sneImm _ _ => 0x4000#16
  | .seReg _ _ => 0x5000#16
  | .ldImm _ _ => 0x6000#16
  | .addImm _ _ => 0x7000#16
  | .ldReg _ _ => 0x8000#16
  | .orReg _ _ => 0x8001#16
  | .andReg _ _ => 0x8002#16
  | .xorReg _ _ => 0x8003#16
  | .addReg _ _ => 0x8004#16
  | .sub _ _ => 0x8005#16
  | .shr _ _ => 0x8006#16
  | .subn _ _ => 0x8007#16
  | .shl _ _ => 0x800E#16
  | .sneReg _ _ => 0x9000#16
  | .ldI _ => 0xA000#16
  | .jpV0 _ => 0xB000#16
  | .rnd _ _ => 0xC000#16
  | .drw _ _ _ => 0xD000#16
  | .skp _ => 0xE09E#16
  | .sknp _ => 0xE0A1#16
  | .ldVxDt _ => 0xF007#16
  | .ldVxK _ => 0xF00A#16
  | .ldDtVx _ => 0xF015#16
  | .ldStVx _ => 0xF018#16
  | .addIVx _ => 0xF01E#16
  | .ldFVx _ => 0xF029#16
  | .ldBVx _ => 0xF033#16
  | .ldMemVx _ => 0xF055#16
  | .ldVxMem _ => 0xF065#16
  | .nopClass0 _ => 0x0000#16
  | .nopClass5 _ => 0x5000#16
  | .nopClass8 _ => 0x8000#16
  | .nopClass9 _ => 0x9000#16
  | .nopClassE _ => 0xE000#16
  | .nopClassF _ => 0xF000#16

end Sys2Proof
end

