-- ==== Sys2Proof/Config.lean ====
section
/-! DEFINITION. The parameters of the machine: the fixed ones of rule R6 that a definition uses, and the one free
value, the byte each `Cxkk` draws (R7 RND, R142, R189). -/

namespace Sys2Proof.Config

/-- MEM_SIZE (R6): bytes of memory; the valid addresses are the numbers below it (R51). -/
@[simp] abbrev memSize : Nat := 4096

/-- ROM_ORIGIN (R6): where LOAD places the first ROM byte, and the value LOAD gives PC (R182). -/
@[simp] abbrev romOrigin : Nat := 0x200

/-- ROM_MAX (R6): the largest ROM length LOAD accepts (R182, R183). -/
@[simp] abbrev romMax : Nat := 3584

/-- FONT_LEN (R6): bytes of font, from address 0 (R31). -/
@[simp] abbrev fontLen : Nat := 80

/-- STACK_DEPTH (R6): the value of SP at which the stack is full (R25). -/
@[simp] abbrev stackDepth : Nat := 16

/-- GLYPH_LEN (R6): bytes of one glyph, the factor of `Fx29` (R152). -/
@[simp] abbrev glyphLen : Nat := 5

/-- FREE VALUE (log entry 2). The byte the environment presents to the n-th execution of `Cxkk`:
"any of the 256 values, independent of all state and of earlier draws, under no law" (R142). It has no body, so
nothing can be proved of a value of it: a claim about a draw holds for every byte. -/
opaque rndByte : Nat → Byte

end Sys2Proof.Config
end

