-- ==== Sys2Proof/Machine/Font.lean ====
section
/-! DEFINITION. The default value of the FONT parameter (rule R31; log entry 1). -/

namespace Sys2Proof.Machine

/-- The sixteen glyphs, five bytes each, top row first (R31). PRESUMED: the spec gives the table as "from general
knowledge, not in source" (log entry 1). -/
def glyphs : List (List Byte) :=
  [[0xF0, 0x90, 0x90, 0x90, 0xF0],
   [0x20, 0x60, 0x20, 0x20, 0x70],
   [0xF0, 0x10, 0xF0, 0x80, 0xF0],
   [0xF0, 0x10, 0xF0, 0x10, 0xF0],
   [0x90, 0x90, 0xF0, 0x10, 0x10],
   [0xF0, 0x80, 0xF0, 0x10, 0xF0],
   [0xF0, 0x80, 0xF0, 0x90, 0xF0],
   [0xF0, 0x10, 0x20, 0x40, 0x40],
   [0xF0, 0x90, 0xF0, 0x90, 0xF0],
   [0xF0, 0x90, 0xF0, 0x10, 0xF0],
   [0xF0, 0x90, 0xF0, 0x90, 0x90],
   [0xE0, 0x90, 0xE0, 0x90, 0xE0],
   [0xF0, 0x80, 0x80, 0x80, 0xF0],
   [0xE0, 0x90, 0x90, 0x90, 0xE0],
   [0xF0, 0x80, 0xF0, 0x80, 0xF0],
   [0xF0, 0x80, 0xF0, 0x80, 0x80]]

/-- FONT[a] of the default table; 0x00 from address 80 on (R30, R31). -/
def fontByte (a : Nat) : Byte := (glyphs.getD (a / Config.glyphLen) []).getD (a % Config.glyphLen) 0

/-- The default FONT as the 80 bytes RESET takes (R31, R181). -/
def defaultFont : Vector Byte Config.fontLen := Vector.ofFn fun a => fontByte a.val

end Sys2Proof.Machine
end

