-- ==== Sys2Proof/Machine/State.lean ====
section
/-! DEFINITION. The state of the core: the twelve elements of rule R20, and the model's own counter of random draws;
its reset value (R20, R180, R230). -/

namespace Sys2Proof.Machine

/-- The causes of a fault that FAULT can hold (R35, R200). In this model a STEP TAKES a fault: it answers a next state
whose FAULT register holds the cause (R206; log entry 3), so no step and no meaning ends in `Host.Outcome.fault`. -/
inductive Fault where
  /-- Code 1. Raised by the instruction fetch, `Dxyn`, `Fx33`, `Fx55` and `Fx65` on an address of 4096 or more (R201).
  Safe: it is the spec's own fault, recorded in FAULT. -/
  | outOfBounds
  /-- Code 2. Raised by `2nnn` with SP = 16 (R202). Safe: the spec's own fault, recorded in FAULT. -/
  | stackOverflow
  /-- Code 3. Raised by `00EE` with SP = 0 (R203). Safe: the spec's own fault, recorded in FAULT. -/
  | stackUnderflow
  deriving DecidableEq, Repr

/-- Why the model gives an instruction no meaning. -/
inductive Refusal where
  /-- The instruction with this mnemonic has no meaning yet. Raised by an arm of `exec` only, and by none of them: every
  constructor of `Instr` has its meaning. Safe: nothing runs. -/
  | notModelled (mnemonic : String)
  deriving DecidableEq, Repr

/-- MEM (R30) as the list of the bytes that differ from their reset contents, at strictly rising addresses
(`Memory.wf` in Machine/Ops.lean is the form; `Memory.unlisted` there is what an unlisted address reads as). -/
abbrev Memory := List Host.Cell

/-- FB (R32): `FB[c][r]`, column `c` 0 to 63, row `r` 0 to 31, true = lit. -/
abbrev Framebuffer := Vector (Vector Bool 32) 64

/-- The state of the core (R20). -/
structure State where
  /-- V0 to VF (R21); VF is also the flag (R22). -/
  v : Vector Byte 16
  /-- I, the index register (R23). -/
  i : Word16
  /-- PC, the program counter (R24). -/
  pc : Word16
  /-- SP, the number of return addresses held, 0 to 16 (R25). -/
  sp : Fin 17
  /-- STK, the return addresses (R26). -/
  stk : Vector Word16 16
  /-- DT, the delay timer (R27). -/
  dt : Byte
  /-- ST, the sound timer (R28). -/
  st : Byte
  /-- MEM (R30). -/
  mem : Memory
  /-- FB, the framebuffer (R32). -/
  fb : Framebuffer
  /-- KEY, true = down (R33). -/
  key : Vector Bool 16
  /-- LATCH, the last-pressed key (R34). -/
  latch : Option KeyId
  /-- FAULT (R35). -/
  fault : Option Fault
  /-- The model's own: how many bytes `Cxkk` has drawn so far (log entry 2). -/
  rndDraws : Nat
  deriving DecidableEq, Repr

/-- The state right after RESET (R20, R180, R230), with the default FONT (R31): memory lists nothing, since every byte
is at its reset contents. -/
def State.reset : State where
  v := Vector.replicate 16 0
  i := 0
  pc := 0
  sp := 0
  stk := Vector.replicate 16 0
  dt := 0
  st := 0
  mem := []
  fb := Vector.replicate 64 (Vector.replicate 32 false)
  key := Vector.replicate 16 false
  latch := none
  fault := none
  rndDraws := 0

end Sys2Proof.Machine
end

