-- ==== Sys2Proof/Machine/Ops.lean ====
section
/-! DEFINITION. The named operations over registers, memory, the stack and the framebuffer, and taking a fault: what
every meaning is written over. -/

namespace Sys2Proof.Machine

open Host (Outcome)

/-! ## General registers and the program counter (R21, R24) -/

/-- `V[r]`: the read of a general register (R10, R21). -/
def State.reg (s : State) (r : Reg) : Byte := s.v.get r

/-- `V[r] <- b`: the write of a general register (R10, R21). -/
def State.setReg (s : State) (r : Reg) (b : Byte) : State := { s with v := s.v.set r.val b r.isLt }

/-- `PC <- PC + 2`: the advance of the prologue (R100) and the skip action (R120). -/
def State.advance (s : State) : State := { s with pc := s.pc + 2 }

/-! ## Faults (R206) -/

/-- `raise F` (R10, R206): FAULT receives the cause and the operation ends, nothing further committed. Control goes
nowhere and nothing else is saved. There is no return from a fault: only RESET leaves the faulted state (R210;
`envReset` in Machine/Environment.lean). -/
def raiseFault (f : Fault) (s : State) : Outcome State Fault Refusal := .next { s with fault := some f }

/-- End an instruction whose effect either completes or raises a fault: in the second case the instruction commits
nothing but the fault entry (R103, R207). -/
def commit (r : Except Fault State) (s : State) : Outcome State Fault Refusal :=
  match r with
  | .ok t => .next t
  | .error f => raiseFault f s

/-- The numeric code of a cause (R200). -/
def Fault.code : Fault → Nat
  | .outOfBounds => 1
  | .stackOverflow => 2
  | .stackUnderflow => 3

/-! ## Memory (R50 to R58) -/

/-- What an address the memory does not list reads as: its reset contents, FONT below 0x050 and 0x00 above (R30). -/
def Memory.unlisted (a : Nat) : Byte := fontByte a

/-- `MEM[a]` (R10). -/
def Memory.byteAt (m : Memory) (a : Nat) : Byte :=
  match m with
  | [] => Memory.unlisted a
  | (a', b') :: rest => if a = a' then b' else Memory.byteAt rest a

/-- Put byte `b` at address `a` and keep the canonical form. -/
def Memory.put (m : Memory) (a : Nat) (b : Byte) : Memory :=
  match m with
  | [] => if b = Memory.unlisted a then [] else [(a, b)]
  | (a', b') :: rest =>
    if a < a' then (if b = Memory.unlisted a then (a', b') :: rest else (a, b) :: (a', b') :: rest)
    else if a = a' then (if b = Memory.unlisted a then rest else (a, b) :: rest)
    else (a', b') :: Memory.put rest a b

/-- `MEM[a] <- b` (R10). There is no byte at 4096 or above (R51): no operation stores there (each has checked its
range first), and the store changes nothing (log entry 12). -/
def Memory.store (m : Memory) (a : Nat) (b : Byte) : Memory := if a < Config.memSize then Memory.put m a b else m

/-- The canonical form from address `lo` up: addresses strictly rising and below 4096, no entry equal to what an
unlisted address reads as. -/
def Memory.wfFrom (lo : Nat) : Memory → Bool
  | [] => true
  | (a, b) :: rest =>
    decide (lo ≤ a) && decide (a < Config.memSize) && decide (b ≠ Memory.unlisted a) && Memory.wfFrom (a + 1) rest

/-- The canonical form of memory: equal memories are equal data. -/
def Memory.wf (m : Memory) : Bool := Memory.wfFrom 0 m

/-- `MemRead(addr, 1)` (R52). -/
def memRead8 (m : Memory) (addr : Nat) : Except Fault Byte :=
  if addr ≥ Config.memSize then .error .outOfBounds else .ok (Memory.byteAt m addr)

/-- `MemRead(addr, 2)`: the big-endian word at `addr`, `addr + 1`; the bound check is on `addr + 1` (R54, R55). -/
def memRead16 (m : Memory) (addr : Nat) : Except Fault Word16 :=
  if addr + 1 ≥ Config.memSize then .error .outOfBounds
  else .ok (wordOfBytes (Memory.byteAt m addr) (Memory.byteAt m (addr + 1)))

/-- `MemWrite(addr, 1, v)` (R53). -/
def memWrite8 (m : Memory) (addr : Nat) (b : Byte) : Except Fault Memory :=
  if addr ≥ Config.memSize then .error .outOfBounds else .ok (Memory.store m addr b)

/-- `n` bytes in ascending address order (R55, R58). -/
def Memory.bytesFrom (m : Memory) (a : Nat) : Nat → List Byte
  | 0 => []
  | n + 1 => Memory.byteAt m a :: Memory.bytesFrom m (a + 1) n

/-- Store bytes in ascending address order (R55, R58). -/
def Memory.storeFrom (m : Memory) (a : Nat) : List Byte → Memory
  | [] => m
  | b :: bs => Memory.storeFrom (Memory.store m a b) (a + 1) bs

/-- Does an access of `n` bytes at `a` touch an address of 4096 or more? The check a multi-byte operation makes before
it reads or writes anything (R58); an access of no bytes never faults (R162). -/
def rangeFaults (a n : Nat) : Bool := decide (1 ≤ n ∧ a + n - 1 ≥ Config.memSize)

/-- Read `n` bytes at `a` after the check of the whole range (R58). -/
def memReadRange (m : Memory) (a n : Nat) : Except Fault (List Byte) :=
  if rangeFaults a n then .error .outOfBounds else .ok (Memory.bytesFrom m a n)

/-- Write bytes at `a` after the check of the whole range: all of them or none (R58). -/
def memWriteRange (a : Nat) (bytes : List Byte) (s : State) : Except Fault State :=
  if rangeFaults a bytes.length then .error .outOfBounds
  else .ok { s with mem := Memory.storeFrom s.mem a bytes }

/-! ## The return stack (R25, R26) -/

/-- Push: "fails `StackOverflow`" when SP = 16, else store at SP and then increment (R26). -/
def stackPush (w : Word16) (s : State) : Except Fault State :=
  if h : s.sp.val < Config.stackDepth then
    .ok { s with stk := s.stk.set s.sp.val w h, sp := ⟨s.sp.val + 1, Nat.succ_lt_succ h⟩ }
  else .error .stackOverflow

/-- Pop into PC: "fails `StackUnderflow`" when SP = 0, else decrement and read the slot, which keeps its value
(R26, R110). -/
def stackPopToPc (s : State) : Except Fault State :=
  if h : 0 < s.sp.val then
    .ok { s with sp := ⟨s.sp.val - 1, by omega⟩, pc := s.stk.get ⟨s.sp.val - 1, by omega⟩ }
  else .error .stackUnderflow

/-! ## The framebuffer (R160) -/

/-- `FB[c][r]` (R10, R32). -/
def Framebuffer.cell (fb : Framebuffer) (c : Fin 64) (r : Fin 32) : Bool := (fb.get c).get r

/-- `FB[c][r] <- b`. -/
def Framebuffer.setCell (fb : Framebuffer) (c : Fin 64) (r : Fin 32) (b : Bool) : Framebuffer :=
  fb.set c.val ((fb.get c).set r.val b r.isLt) c.isLt

/-- `FB[c][r] <- not FB[c][r]` (R160, R162). -/
def Framebuffer.toggle (fb : Framebuffer) (c : Fin 64) (r : Fin 32) : Framebuffer :=
  Framebuffer.setCell fb c r (!Framebuffer.cell fb c r)

/-- `clear()`: every cell false (R160, R161). -/
def Framebuffer.blank : Framebuffer := Vector.replicate 64 (Vector.replicate 32 false)

/-! ## Keys (R33) -/

/-- `KEY[k]` (R10, R33). -/
def State.keyDown (s : State) (k : KeyId) : Bool := s.key.get k

end Sys2Proof.Machine
end

