-- ==== Sys2Proof/Machine/Flags.lean ====
section
/-! DEFINITION. The flag computations (rule R22): each writes VF with 0x00 or 0x01. -/

namespace Sys2Proof.Machine

/-- `bool(c)` as a register value: 0x01 or 0x00 (R10, R22). -/
def flagByte (c : Bool) : Byte := if c then 1#8 else 0#8

/-- The carry of `8xy4`: the unbounded sum exceeds 255 (R136). -/
def carryFlag (a b : Byte) : Bool := decide (a.toNat + b.toNat > 255)

/-- The flag of a subtraction `a - b`: the strict comparison a > b (R137, R139). -/
def notBorrowFlag (a b : Byte) : Bool := decide (a.toNat > b.toNat)

/-- The flag of `8xy6`: bit 0 of the operand (R138). -/
def lowBitFlag (a : Byte) : Bool := a.getLsbD 0

/-- The flag of `8xyE`: bit 7 of the operand (R140). -/
def highBitFlag (a : Byte) : Bool := a.getLsbD 7

/-- Write VF with the flag and then Vx with the result: with x = F the result is what stays (R141). -/
def flagThenResult (x : Reg) (flag : Bool) (result : Byte) (s : State) : State :=
  (s.setReg regF (flagByte flag)).setReg x result

end Sys2Proof.Machine
end

