-- ==== Sys2Proof/Machine/Operands.lean ====
section
/-! DEFINITION. The operand forms: how an instruction's fields and registers become the values it works on. -/

namespace Sys2Proof.Machine

/-- `zext_16(nnn)`: the address immediate as a PC or I value (R83). -/
def addressOf (nnn : BitVec 12) : Word16 := nnn.setWidth 16

/-- `zext_16(b)`: a byte as a 16-bit value (R10). -/
def zext16 (b : Byte) : Word16 := b.setWidth 16

/-- The effective address `I + k`, the full 16-bit I, formed without wrapping (R57). -/
def State.ea (s : State) (k : Nat) : Nat := s.i.toNat + k

/-- The key a register value names: its low four bits (R127). -/
def keyOf (b : Byte) : KeyId := ⟨(b.extractLsb' 0 4).toNat, (b.extractLsb' 0 4).isLt⟩

/-- `is_down(v)`, a pure query of KEY (R127). -/
def isDown (s : State) (b : Byte) : Bool := s.keyDown (keyOf b)

/-- `zext_8(k)`: a latched key as a register value (R171). -/
def byteOfKey (k : KeyId) : Byte := BitVec.ofNat 8 k.val

/-- V0 to Vx in order, the bytes `Fx55` stores (R154). -/
def State.regsUpTo (s : State) (x : Reg) : List Byte := s.v.toList.take (x.val + 1)

/-- Registers V0, V1, ... receive the bytes in order; the registers beyond them keep their values (R156). -/
def State.loadRegs (s : State) (bytes : List Byte) : State :=
  { s with v := Vector.ofFn fun r => bytes.getD r.val (s.reg r) }

/-- The decimal digits of a byte: hundreds, tens, units, one byte each (R153). -/
def bcdDigits (b : Byte) : List Byte :=
  [BitVec.ofNat 8 (b.toNat / 100), BitVec.ofNat 8 (b.toNat / 10 % 10), BitVec.ofNat 8 (b.toNat % 10)]

/-- The column of a sprite pixel: `(px + col) mod 64` (R162, R164). -/
def columnOf (px : Byte) (col : Nat) : Fin 64 := Fin.ofNat 64 (px.toNat + col)

/-- The row of a sprite pixel: `(py + row) mod 32` (R162, R164). -/
def rowOf (py : Byte) (row : Nat) : Fin 32 := Fin.ofNat 32 (py.toNat + row)

/-- The bit of a sprite byte at column offset `col`: bit 7 first (R9, R162). -/
def spriteBit (b : Byte) (col : Nat) : Bool := b.getLsbD (7 - col)

end Sys2Proof.Machine
end

