-- ==== Sys2Proof/Machine/Alu.lean ====
section
/-! DEFINITION. Register load, arithmetic and logic (spec/43_alu.md). Both operands are read from the state before the
instruction, and VF is written before Vx (R141). -/

namespace Sys2Proof.Machine

open Host (Outcome)

/-- 6xkk `LD Vx, kk` (R130). -/
def execLdImm (x : Reg) (kk : Byte) (s : State) : Outcome State Fault Refusal := .next (s.setReg x kk)

/-- 7xkk `ADD Vx, kk` (R131): wraps modulo 256, no flag. -/
def execAddImm (x : Reg) (kk : Byte) (s : State) : Outcome State Fault Refusal := .next (s.setReg x (s.reg x + kk))

/-- 8xy0 `LD Vx, Vy` (R132). -/
def execLdReg (x y : Reg) (s : State) : Outcome State Fault Refusal := .next (s.setReg x (s.reg y))

/-- 8xy1 `OR Vx, Vy` (R133). -/
def execOrReg (x y : Reg) (s : State) : Outcome State Fault Refusal := .next (s.setReg x (s.reg x ||| s.reg y))

/-- 8xy2 `AND Vx, Vy` (R134). -/
def execAndReg (x y : Reg) (s : State) : Outcome State Fault Refusal := .next (s.setReg x (s.reg x &&& s.reg y))

/-- 8xy3 `XOR Vx, Vy` (R135). -/
def execXorReg (x y : Reg) (s : State) : Outcome State Fault Refusal := .next (s.setReg x (s.reg x ^^^ s.reg y))

/-- 8xy4 `ADD Vx, Vy` (R136, R141). -/
def execAddReg (x y : Reg) (s : State) : Outcome State Fault Refusal :=
  .next (flagThenResult x (carryFlag (s.reg x) (s.reg y)) (s.reg x + s.reg y) s)

/-- 8xy5 `SUB Vx, Vy` (R137, R141). -/
def execSub (x y : Reg) (s : State) : Outcome State Fault Refusal :=
  .next (flagThenResult x (notBorrowFlag (s.reg x) (s.reg y)) (s.reg x - s.reg y) s)

/-- 8xy6 `SHR Vx, Vy` (R138, R141): the operand is Vx for every y. -/
def execShr (x _y : Reg) (s : State) : Outcome State Fault Refusal :=
  .next (flagThenResult x (lowBitFlag (s.reg x)) (s.reg x >>> 1) s)

/-- 8xy7 `SUBN Vx, Vy` (R139, R141). -/
def execSubn (x y : Reg) (s : State) : Outcome State Fault Refusal :=
  .next (flagThenResult x (notBorrowFlag (s.reg y) (s.reg x)) (s.reg y - s.reg x) s)

/-- 8xyE `SHL Vx, Vy` (R140, R141): the operand is Vx for every y. -/
def execShl (x _y : Reg) (s : State) : Outcome State Fault Refusal :=
  .next (flagThenResult x (highBitFlag (s.reg x)) (s.reg x <<< 1) s)

/-- The byte the environment presents to this execution of `Cxkk`: a free value (R142, R189; log entry 2). -/
def State.rndInput (s : State) : Byte := Config.rndByte s.rndDraws

/-- Cxkk `RND Vx, kk` (R142): `V[x] <- rnd & kk`; the model's counter moves on, so that the next draw is a fresh
byte. -/
def execRnd (x : Reg) (kk : Byte) (s : State) : Outcome State Fault Refusal :=
  .next { s.setReg x (s.rndInput &&& kk) with rndDraws := s.rndDraws + 1 }

end Sys2Proof.Machine
end

