-- ==== Sys2Proof/Machine/Display.lean ====
section
/-! DEFINITION. The display instructions CLS and DRW (spec/45_display.md). -/

namespace Sys2Proof.Machine

open Host (Outcome)

/-- The pixel of a set sprite bit: the collision grows if the cell is lit, and the cell is toggled (R162). -/
def drawPixel (c : Fin 64) (r : Fin 32) (d : Framebuffer × Bool) : Framebuffer × Bool :=
  (Framebuffer.toggle d.1 c r, d.2 || Framebuffer.cell d.1 c r)

/-- The columns `col` of one sprite byte, in order; a 0 bit leaves its cell alone (R160, R162). -/
def drawCols (px : Byte) (r : Fin 32) (b : Byte) : List Nat → Framebuffer × Bool → Framebuffer × Bool
  | [], d => d
  | col :: cols, d =>
    drawCols px r b cols (if spriteBit b col then drawPixel (columnOf px col) r d else d)

/-- The rows of a sprite from row offset `row` on, one byte each, eight columns a row (R162). -/
def drawRows (px py : Byte) : Nat → List Byte → Framebuffer × Bool → Framebuffer × Bool
  | _, [], d => d
  | row, b :: bs, d => drawRows px py (row + 1) bs (drawCols px (rowOf py row) b [0, 1, 2, 3, 4, 5, 6, 7] d)

/-- `draw_sprite` at (Vx, Vy), and VF with the collision after all rows (R160, R162). -/
def drawSprite (x y : Reg) (s : State) (sprite : List Byte) : State :=
  let d := drawRows (s.reg x) (s.reg y) 0 sprite (s.fb, false)
  { s with fb := d.1 }.setReg regF (flagByte d.2)

/-- 00E0 `CLS` (R161). -/
def execCls (s : State) : Outcome State Fault Refusal := .next { s with fb := Framebuffer.blank }

/-- Dxyn `DRW Vx, Vy, n` (R162). -/
def execDrw (x y : Reg) (n : Fin 16) (s : State) : Outcome State Fault Refusal :=
  commit ((memReadRange s.mem (s.ea 0) n.val).map (drawSprite x y s)) s

end Sys2Proof.Machine
end

