-- ==== Sys2Proof/Machine/Flow.lean ====
section
/-! DEFINITION. Control transfer: RET, JP, CALL, JP V0 (spec/41_flow.md). PC already holds the instruction's address
plus 2 (R12). -/

namespace Sys2Proof.Machine

open Host (Outcome)

/-- 00EE `RET` (R110). -/
def execRet (s : State) : Outcome State Fault Refusal := commit (stackPopToPc s) s

/-- 1nnn `JP nnn` (R111). -/
def execJp (nnn : BitVec 12) (s : State) : Outcome State Fault Refusal := .next { s with pc := addressOf nnn }

/-- 2nnn `CALL nnn` (R112): the advanced PC is pushed. -/
def execCall (nnn : BitVec 12) (s : State) : Outcome State Fault Refusal :=
  commit ((stackPush s.pc s).map fun t => { t with pc := addressOf nnn }) s

/-- Bnnn `JP V0, nnn` (R113). -/
def execJpV0 (nnn : BitVec 12) (s : State) : Outcome State Fault Refusal :=
  .next { s with pc := addressOf nnn + zext16 (s.reg reg0) }

end Sys2Proof.Machine
end

