-- ==== Sys2Proof/Machine/IndexMemory.lean ====
section
/-! DEFINITION. The index register and memory transfer (spec/44_index_memory.md). No instruction of memory transfer
changes I (R155); each checks its whole address range first (R58). -/

namespace Sys2Proof.Machine

open Host (Outcome)

/-- Annn `LD I, nnn` (R150). -/
def execLdI (nnn : BitVec 12) (s : State) : Outcome State Fault Refusal := .next { s with i := addressOf nnn }

/-- Fx1E `ADD I, Vx` (R151): 16-bit, unmasked, no flag. -/
def execAddIVx (x : Reg) (s : State) : Outcome State Fault Refusal := .next { s with i := s.i + zext16 (s.reg x) }

/-- Fx29 `LD F, Vx` (R152): the whole 8-bit Vx times 5. -/
def execLdFVx (x : Reg) (s : State) : Outcome State Fault Refusal :=
  .next { s with i := zext16 (s.reg x) * BitVec.ofNat 16 Config.glyphLen }

/-- Fx33 `LD B, Vx` (R153). -/
def execLdBVx (x : Reg) (s : State) : Outcome State Fault Refusal :=
  commit (memWriteRange (s.ea 0) (bcdDigits (s.reg x)) s) s

/-- Fx55 `LD [I], Vx` (R154). -/
def execLdMemVx (x : Reg) (s : State) : Outcome State Fault Refusal :=
  commit (memWriteRange (s.ea 0) (s.regsUpTo x) s) s

/-- Fx65 `LD Vx, [I]` (R156). -/
def execLdVxMem (x : Reg) (s : State) : Outcome State Fault Refusal :=
  commit ((memReadRange s.mem (s.ea 0) (x.val + 1)).map s.loadRegs) s

end Sys2Proof.Machine
end

