-- ==== Sys2Proof/Machine/NopClass.lean ====
section
/-! DEFINITION. The no-op class (rules R86, R104): after the prologue nothing more happens. -/

namespace Sys2Proof.Machine

open Host (Outcome)

/-- The empty pseudocode of R104. -/
def noEffect (s : State) : Outcome State Fault Refusal := .next s

/-- A no-op-class word of family 0x0 (R104). -/
def execNopClass0 (_w : BitVec 12) (s : State) : Outcome State Fault Refusal := noEffect s

/-- A no-op-class word of family 0x5 (R104). -/
def execNopClass5 (_w : BitVec 12) (s : State) : Outcome State Fault Refusal := noEffect s

/-- A no-op-class word of family 0x8 (R104). -/
def execNopClass8 (_w : BitVec 12) (s : State) : Outcome State Fault Refusal := noEffect s

/-- A no-op-class word of family 0x9 (R104). -/
def execNopClass9 (_w : BitVec 12) (s : State) : Outcome State Fault Refusal := noEffect s

/-- A no-op-class word of family 0xE (R104). -/
def execNopClassE (_w : BitVec 12) (s : State) : Outcome State Fault Refusal := noEffect s

/-- A no-op-class word of family 0xF (R104). -/
def execNopClassF (_w : BitVec 12) (s : State) : Outcome State Fault Refusal := noEffect s

end Sys2Proof.Machine
end

