-- ==== Sys2Proof/Machine/Skip.lean ====
section
/-! DEFINITION. The conditional skips (spec/42_skip.md). PC already holds the instruction's address plus 2 (R12). -/

namespace Sys2Proof.Machine

open Host (Outcome)

/-- The skip action (R120): if the condition holds, `PC <- PC + 2` once more; nothing else. -/
def skipIf (c : Bool) (s : State) : Outcome State Fault Refusal := .next (if c then s.advance else s)

/-- 3xkk `SE Vx, kk` (R121). -/
def execSeImm (x : Reg) (kk : Byte) (s : State) : Outcome State Fault Refusal := skipIf (s.reg x == kk) s

/-- 4xkk `SNE Vx, kk` (R122). -/
def execSneImm (x : Reg) (kk : Byte) (s : State) : Outcome State Fault Refusal := skipIf (s.reg x != kk) s

/-- 5xy0 `SE Vx, Vy` (R123). -/
def execSeReg (x y : Reg) (s : State) : Outcome State Fault Refusal := skipIf (s.reg x == s.reg y) s

/-- 9xy0 `SNE Vx, Vy` (R124). -/
def execSneReg (x y : Reg) (s : State) : Outcome State Fault Refusal := skipIf (s.reg x != s.reg y) s

/-- Ex9E `SKP Vx` (R125): the key is named by the value of Vx. -/
def execSkp (x : Reg) (s : State) : Outcome State Fault Refusal := skipIf (isDown s (s.reg x)) s

/-- ExA1 `SKNP Vx` (R126): the key is named by the value of Vx. -/
def execSknp (x : Reg) (s : State) : Outcome State Fault Refusal := skipIf (!isDown s (s.reg x)) s

end Sys2Proof.Machine
end

