-- ==== Sys2Proof/Machine/TimersKeys.lean ====
section
/-! DEFINITION. The timer and key-latch instructions (spec/46_timers_keys.md). -/

namespace Sys2Proof.Machine

open Host (Outcome)

/-- Fx07 `LD Vx, DT` (R170). -/
def execLdVxDt (x : Reg) (s : State) : Outcome State Fault Refusal := .next (s.setReg x s.dt)

/-- Fx0A `LD Vx, K` (R171): a read of the latch that never waits; an empty latch leaves Vx as it is. -/
def execLdVxK (x : Reg) (s : State) : Outcome State Fault Refusal :=
  .next (match s.latch with
    | some k => s.setReg x (byteOfKey k)
    | none => s)

/-- Fx15 `LD DT, Vx` (R172). -/
def execLdDtVx (x : Reg) (s : State) : Outcome State Fault Refusal := .next { s with dt := s.reg x }

/-- Fx18 `LD ST, Vx` (R173). -/
def execLdStVx (x : Reg) (s : State) : Outcome State Fault Refusal := .next { s with st := s.reg x }

end Sys2Proof.Machine
end

