-- ==== Sys2Proof/Machine/Fetch.lean ====
section
/-! DEFINITION. Instruction fetch (rules R54, R55, R100 line 1) and placing a word where the next fetch reads it. -/

namespace Sys2Proof.Machine

/-- `op <- MemRead(PC, 2)` (R100 line 1, R101). -/
def fetchWord (s : State) : Except Fault Word16 := memRead16 s.mem s.pc.toNat

/-- The state with a word of the opcode table stored at PC, PC + 1, the high byte first (R55). -/
def placeWordAtPc (s : State) (nbits w : Nat) : State :=
  { s with mem := Memory.storeFrom s.mem s.pc.toNat (bytesOfWord (tableWord nbits w)) }

end Sys2Proof.Machine
end

