-- ==== Sys2Proof/Machine/Step.lean ====
section
/-! DEFINITION. STEP (rules R100 to R106). -/

namespace Sys2Proof.Machine

open Host (Outcome)

/-- STEP: nothing while FAULT is set (R106); else fetch at PC, a fetch fault leaving PC as it is (R101), then
`PC <- PC + 2`, decode and execute (R100). -/
def step (s : State) : Outcome State Fault Refusal :=
  match s.fault with
  | some _ => .next s
  | none =>
    match fetchWord s with
    | .error f => raiseFault f s
    | .ok op => exec (decodeWord op) s.advance

/-- The state with one instruction stored where `step` fetches next, at PC (log entry 5). The next step runs it where
FAULT is none and PC is at most 0x0FFE, as after reset. -/
def State.withFetchWord (s : State) (nbits w : Nat) : State := placeWordAtPc s nbits w

end Sys2Proof.Machine
end

