-- ==== Sys2Proof/Machine/Environment.lean ====
section
/-! DEFINITION. The operations of the environment other than STEP, and the observation ports (spec/47_host_ops.md). -/

namespace Sys2Proof.Machine

/-- The result of a LOAD (R181): ok, or the error `ProgramTooLarge` (R183, R204), code 4 of kind `LoadError` (R200),
which is never latched in FAULT. -/
inductive LoadResult where
  /-- The LOAD succeeded (R182). -/
  | ok
  /-- The ROM is longer than 3584 bytes; nothing was changed (R183). -/
  | programTooLarge
  deriving DecidableEq, Repr

/-- The two error kinds of the source (R200; conflict C1). -/
inductive ErrorKind where
  /-- Memory access, stack push or pop beyond capacity. -/
  | boundsError
  /-- The ROM exceeds the available memory. -/
  | loadError
  deriving DecidableEq, Repr

/-- The kind of a fault cause (R200): all three are `BoundsError`. -/
def Fault.kind : Fault → ErrorKind
  | .outOfBounds => .boundsError
  | .stackOverflow => .boundsError
  | .stackUnderflow => .boundsError

/-- The code and kind of a LOAD's error (R200). -/
def LoadResult.error : LoadResult → Option (Nat × ErrorKind)
  | .ok => none
  | .programTooLarge => some (4, .loadError)

/-- The reset state with FONT as a parameter (R7 FONT, R31, R180): the 80 bytes stood at 0x000 to 0x04F. With the
default FONT it is `State.reset`. -/
def State.resetWith (font : Vector Byte Config.fontLen) : State :=
  { State.reset with mem := Memory.storeFrom State.reset.mem 0 font.toList }

/-- RESET (R180): every element of state at its reset value. The model's counter of draws is no element of the state
and goes on, so that the draws after a RESET are fresh (log entry 2). -/
def envReset (font : Vector Byte Config.fontLen) (s : State) : State :=
  { State.resetWith font with rndDraws := s.rndDraws }

/-- LOAD (R182, R183): up to 3584 bytes go to 0x200 upward and PC becomes 0x0200, nothing else changes; a longer
sequence fails and changes nothing. -/
def envLoad (rom : List Byte) (s : State) : State × LoadResult :=
  if rom.length ≤ Config.romMax then
    ({ s with mem := Memory.storeFrom s.mem Config.romOrigin rom, pc := BitVec.ofNat 16 Config.romOrigin }, .ok)
  else (s, .programTooLarge)

/-- One timer's tick: down by one, stopping at zero (R184). -/
def countDown (t : Byte) : Byte := if t.toNat > 0 then t - 1 else t

/-- TICK (R184). -/
def envTick (s : State) : State := { s with dt := countDown s.dt, st := countDown s.st }

/-- KEY_DOWN(id) (R185). -/
def envKeyDown (k : KeyId) (s : State) : State :=
  { s with key := s.key.set k.val true k.isLt, latch := some k }

/-- KEY_UP(id) (R186): the latch is cleared whichever key goes up. -/
def envKeyUp (k : KeyId) (s : State) : State :=
  { s with key := s.key.set k.val false k.isLt, latch := none }

/-- The output TONE = (ST > 0) (R28, R188). -/
def State.tone (s : State) : Bool := decide (s.st.toNat > 0)

/-- What the timer and status ports give (R188). -/
structure StatusPorts where
  /-- DT -/
  dt : Byte
  /-- ST -/
  st : Byte
  /-- TONE -/
  tone : Bool
  /-- FAULT -/
  fault : Option Fault
  deriving DecidableEq, Repr

/-- The read of the timer and status ports (R188). -/
def readStatus (s : State) : StatusPorts := { dt := s.dt, st := s.st, tone := s.tone, fault := s.fault }

/-- The read of the framebuffer port: all 2048 cells (R187). -/
def readFramebuffer (s : State) : Framebuffer := s.fb

end Sys2Proof.Machine
end

