-- ==== Sys2Proof/Machine/Schedule.lean ====
section
/-! DEFINITION. The complete interface of the core as one type of operation, and a schedule as a list of them
(rules R181, R190, R191). -/

namespace Sys2Proof.Machine

open Host (Outcome)

/-- The operations of the interface (R181). -/
inductive Operation where
  /-- RESET, with FONT as its parameter (R180). -/
  | reset (font : Vector Byte Config.fontLen)
  /-- LOAD of a byte sequence (R182, R183). -/
  | load (rom : List Byte)
  /-- STEP (R100); its random byte is the free value of log entry 2. -/
  | step
  /-- TICK (R184). -/
  | tick
  /-- KEY_DOWN(id) (R185). -/
  | keyDown (k : KeyId)
  /-- KEY_UP(id) (R186). -/
  | keyUp (k : KeyId)
  /-- The read of the framebuffer port (R187). -/
  | readFb
  /-- The read of the timer and status ports (R188). -/
  | readStatus
  deriving DecidableEq, Repr

/-- What an operation hands back to the environment (R181, column "result"). -/
inductive Response where
  /-- Nothing. -/
  | nothing
  /-- The result of a LOAD. -/
  | loaded (r : LoadResult)
  /-- The cells of the framebuffer. -/
  | frame (fb : Framebuffer)
  /-- The timer and status ports. -/
  | status (p : StatusPorts)
  deriving DecidableEq, Repr

/-- One operation, whole and indivisible (R190): the state after it and what it hands back. -/
def operate (op : Operation) (s : State) : Outcome (State × Response) Fault Refusal :=
  match op with
  | .reset font => .next (envReset font s, .nothing)
  | .load rom => .next ((envLoad rom s).1, .loaded (envLoad rom s).2)
  | .step =>
    match step s with
    | .next t => .next (t, .nothing)
    | .fault f => .fault f
    | .refused r => .refused r
  | .tick => .next (envTick s, .nothing)
  | .keyDown k => .next (envKeyDown k s, .nothing)
  | .keyUp k => .next (envKeyUp k s, .nothing)
  | .readFb => .next (s, .frame (readFramebuffer s))
  | .readStatus => .next (s, .status (readStatus s))

/-- A schedule: the operations one after the other, any after any (R190, R191). -/
def runOps : List Operation → State → Outcome State Fault Refusal
  | [], s => .next s
  | op :: ops, s =>
    match operate op s with
    | .next (t, _) => runOps ops t
    | .fault f => .fault f
    | .refused r => .refused r

end Sys2Proof.Machine
end

