-- ==== Sys2Proof/Safety.lean ====
section
/-! DEFINITION. The terms claims use: the observable parts of a state and what an operation leaves alone; which parts an instruction
may write and when it faults; the cells a sprite covers; what a fetch sees after a store; the invariant of the machine; a run without a fault; the jump to itself. -/

namespace Sys2Proof.Machine

/-! ## What stays the same -/

/-- The parts of a state, one for each thing a claim can speak of: every register, slot, byte, cell and key (R20), and
the model's own counter. -/
inductive Part where
  /-- V[r] -/
  | reg (r : Reg)
  /-- I -/
  | index
  /-- PC -/
  | pc
  /-- SP -/
  | sp
  /-- STK[k] -/
  | slot (k : Fin 16)
  /-- DT -/
  | dt
  /-- ST -/
  | st
  /-- MEM[a] -/
  | byte (a : Nat)
  /-- FB[c][r] -/
  | cell (c : Fin 64) (r : Fin 32)
  /-- KEY[k] -/
  | key (k : KeyId)
  /-- LATCH -/
  | latch
  /-- FAULT -/
  | fault
  /-- The model's counter of draws -/
  | draws
  deriving DecidableEq, Repr

/-- MEM[a] of a state. -/
def State.byte (s : State) (a : Nat) : Byte := Memory.byteAt s.mem a

/-- FB[c][r] of a state. -/
def State.cell (s : State) (c : Fin 64) (r : Fin 32) : Bool := Framebuffer.cell s.fb c r

/-- STK[k] of a state. -/
def State.slot (s : State) (k : Fin 16) : Word16 := s.stk.get k

/-- The part has the same value in both states. -/
def Part.same (p : Part) (s t : State) : Prop :=
  match p with
  | .reg r => t.reg r = s.reg r
  | .index => t.i = s.i
  | .pc => t.pc = s.pc
  | .sp => t.sp = s.sp
  | .slot k => t.slot k = s.slot k
  | .dt => t.dt = s.dt
  | .st => t.st = s.st
  | .byte a => t.byte a = s.byte a
  | .cell c r => t.cell c r = s.cell c r
  | .key k => t.keyDown k = s.keyDown k
  | .latch => t.latch = s.latch
  | .fault => t.fault = s.fault
  | .draws => t.rndDraws = s.rndDraws

/-- The frame of an effect: every part outside `writes` is the same in both states. -/
def UnchangedOutside (writes : Part → Prop) (s t : State) : Prop := ∀ p : Part, ¬ writes p → p.same s t

/-! ## When an instruction faults -/

/-- The fault an instruction raises in a state, by the tables of R200 to R203; fetching is not part of it. -/
def faultIn (i : Instr) (s : State) : Option Fault :=
  match i with
  | .ret => if s.sp.val = 0 then some .stackUnderflow else none
  | .call _ => if s.sp.val = 16 then some .stackOverflow else none
  | .drw _ _ n => if n.val ≥ 1 ∧ s.i.toNat + n.val - 1 ≥ 4096 then some .outOfBounds else none
  | .ldBVx _ => if s.i.toNat + 2 ≥ 4096 then some .outOfBounds else none
  | .ldMemVx x => if s.i.toNat + x.val ≥ 4096 then some .outOfBounds else none
  | .ldVxMem x => if s.i.toNat + x.val ≥ 4096 then some .outOfBounds else none
  | .cls | .jp _ | .seImm _ _ | .sneImm _ _ | .seReg _ _ | .ldImm _ _ | .addImm _ _ | .ldReg _ _ | .orReg _ _
  | .andReg _ _ | .xorReg _ _ | .addReg _ _ | .sub _ _ | .shr _ _ | .subn _ _ | .shl _ _ | .sneReg _ _ | .ldI _
  | .jpV0 _ | .rnd _ _ | .skp _ | .sknp _ | .ldVxDt _ | .ldVxK _ | .ldDtVx _ | .ldStVx _ | .addIVx _ | .ldFVx _
  | .nopClass0 _ | .nopClass5 _ | .nopClass8 _ | .nopClass9 _ | .nopClassE _ | .nopClassF _ => none

/-! ## The cells a sprite covers -/

/-- A set bit of the n-row sprite at I, drawn at (px, py), lies on the cell (c, r): some row and column offset with the
bit set (bit 7 first) and `c = (px + col) mod 64`, `r = (py + row) mod 32` (R160, R162). -/
def SpriteCovers (s : State) (px py : Byte) (n : Nat) (c : Fin 64) (r : Fin 32) : Prop :=
  ∃ row, row < n ∧ ∃ col, col < 8 ∧ (s.byte (s.ea row)).getLsbD (7 - col) = true ∧
    c.val = (px.toNat + col) % 64 ∧ r.val = (py.toNat + row) % 32

/-! ## Which parts an instruction may write -/

/-- The parts an instruction that does not fault may write beside the prologue's PC advance, as the rules list the writers
of each part: V and VF (R21, R22), I (R23), PC (R24), SP and STK (R25, R26), DT (R27), ST (R28), MEM (R30), FB (R32); KEY
and LATCH have no writer among the instructions (R33, R34). A slot, the bytes of MEM and the cells of FB are named exactly,
by SP, by the effective addresses (R57) and by the sprite's cells (R160). -/
def writesOf (i : Instr) (s : State) (p : Part) : Prop :=
  match i with
  | .cls => ∃ c r, p = .cell c r
  | .ret => p = .pc ∨ p = .sp
  | .call _ => p = .pc ∨ p = .sp ∨ ∃ k : Fin 16, k.val = s.sp.val ∧ p = .slot k
  | .jp _ | .jpV0 _ => p = .pc
  | .seImm _ _ | .sneImm _ _ | .seReg _ _ | .sneReg _ _ | .skp _ | .sknp _ => p = .pc
  | .ldImm x _ | .addImm x _ | .ldReg x _ | .orReg x _ | .andReg x _ | .xorReg x _ => p = .reg x
  | .addReg x _ | .sub x _ | .shr x _ | .subn x _ | .shl x _ => p = .reg x ∨ p = .reg regF
  | .rnd x _ => p = .reg x ∨ p = .draws
  | .ldI _ | .addIVx _ | .ldFVx _ => p = .index
  | .ldBVx _ => ∃ k, k < 3 ∧ p = .byte (s.ea k)
  | .ldMemVx x => ∃ k, k ≤ x.val ∧ p = .byte (s.ea k)
  | .ldVxMem x => ∃ r : Reg, r ≤ x ∧ p = .reg r
  | .drw x y n => p = .reg regF ∨ ∃ c r, SpriteCovers s (s.reg x) (s.reg y) n.val c r ∧ p = .cell c r
  | .ldVxDt x | .ldVxK x => p = .reg x
  | .ldDtVx _ => p = .dt
  | .ldStVx _ => p = .st
  | .nopClass0 _ | .nopClass5 _ | .nopClass8 _ | .nopClass9 _ | .nopClassE _ | .nopClassF _ => False

/-- The parts an instruction may write in a state: FAULT alone where it faults (R206, R207), else its listed parts. -/
def mayWrite (i : Instr) (s : State) (p : Part) : Prop :=
  match faultIn i s with
  | some _ => p = .fault
  | none => writesOf i s p

/-! ## What a fetch sees after a store -/

/-- The byte at an address after `n` bytes were stored at I upward: the stored one where one was stored there, else the
byte that stood there. -/
def ByteAfterStore (s : State) (n : Nat) (stored : Nat → Byte) (a : Nat) (b : Byte) : Prop :=
  (∀ k, k < n → a = s.ea k → b = stored k) ∧ ((∀ k, k < n → a ≠ s.ea k) → b = s.byte a)

/-- The word the bytes at PC and PC + 1 make after `n` bytes were stored at I upward (R55, R66). -/
def WordAfterStore (s : State) (n : Nat) (stored : Nat → Byte) (w : Word16) : Prop :=
  ∃ hi lo : Byte, w.toNat = hi.toNat * 256 + lo.toNat ∧ ByteAfterStore s n stored s.pc.toNat hi ∧
    ByteAfterStore s n stored (s.pc.toNat + 1) lo

/-! ## The invariant -/

/-- What every operation keeps, from every state that has it: memory in its canonical form; PC and the return
addresses within the bounds of R24 ("at most 0x10FE", "every pushed return address is at most 0x1000"); a latched key
is down (R171). -/
structure Inv (s : State) : Prop where
  /-- Memory is in its canonical form. -/
  memory : Memory.wf s.mem = true
  /-- PC is at most 0x10FE (R24). -/
  pc_le : s.pc.toNat ≤ 0x10FE
  /-- Every return address is at most 0x1000 (R24). -/
  slot_le : ∀ k : Fin 16, (s.slot k).toNat ≤ 0x1000
  /-- While LATCH holds a key, that key is down (R171). -/
  latch_down : ∀ k : KeyId, s.latch = some k → s.keyDown k = true

/-! ## Runs -/

/-- "FAULT = none throughout" (R106): no state of the schedule's run is faulted. -/
def runsWithoutFault : List Operation → State → Bool
  | [], s => s.fault.isNone
  | op :: ops, s =>
    s.fault.isNone &&
      match operate op s with
      | .next (t, _) => runsWithoutFault ops t
      | .fault _ => false
      | .refused _ => false

/-- The instruction at PC is a jump to itself (R111; the end of a run a claim may choose, decision D19). -/
def JumpsToItself (s : State) : Prop :=
  ∃ nnn : BitVec 12, s.pc = addressOf nnn ∧ ∃ op, fetchWord s = .ok op ∧ decodeWord op = .jp nnn

end Sys2Proof.Machine
end

