-- ==== Sys2Proof/Certificates/Slice0/Obligations.lean ====
section
/-! DEFINITION. The statements for the provers. `exec i s` is stated at a state `s` whose PC is already advanced past the
instruction, as the rules state their instructions (R12). -/

open Sys2Proof Sys2Proof.Machine
open Host (Outcome)

/-! ## Encoding -/

/-- Words written out from the rows of R84 decode to their instructions (the examples of R91 among them). That 0x5121 is of
the no-op class is the exact reading of the patterns, the spec's decision D14 (log entry 13). -/
def Obligations.SampleWordsDecode : Prop :=
  decodeWord 0x00E0 = .cls ∧ decodeWord 0x1200 = .jp 0x200 ∧ decodeWord 0x332A = .seImm 3 0x2A ∧
    decodeWord 0x6A05 = .ldImm 10 0x05 ∧ decodeWord 0x8AB4 = .addReg 10 11 ∧ decodeWord 0xA123 = .ldI 0x123 ∧
    decodeWord 0xD015 = .drw 0 1 5 ∧ decodeWord 0xE5A1 = .sknp 5 ∧ decodeWord 0xF265 = .ldVxMem 2 ∧
    decodeWord 0x5121 = .nopClass5 0x121

/-- Decoding the word, or the two bytes, of a well-formed instruction gives it back (R82, R84). Which words are no-op words,
and that their constructors carry `op[11:0]`, is log entry 13 (the spec's decision D14). -/
def Obligations.DecodeOfEncodeIsTheInstruction : Prop :=
  ∀ i : Instr, i.wellFormed = true →
    decodeWord (encode i) = i ∧ ∀ rest : List Byte, decode (encodeBytes i ++ rest) = .ok (i, rest)

/-- Every word decodes to one well-formed instruction, whose word it is (R84, R86 to R88, R102). That no digit of a pattern is
ignored is the spec's decision D14, and that a no-op word keeps `op[11:0]` is the model's choice (log entry 13). -/
def Obligations.EveryWordIsOneInstruction : Prop :=
  ∀ w : Word16, (decodeWord w).wellFormed = true ∧ encode (decodeWord w) = w

/-- A word is an instruction of a row exactly if `(op & mask) = match`; a word that no row selects is in the no-op class
(R84, R86). The exact reading of the patterns is the spec's decision D14 (log entry 13). -/
def Obligations.RowsSelectedByMaskAndMatch : Prop :=
  (∀ (w : Word16) (i : Instr), i.isNopClass = false →
      (w &&& i.mask = i.matchBits ↔
        (decodeWord w).isNopClass = false ∧ (decodeWord w).mask = i.mask ∧ (decodeWord w).matchBits = i.matchBits)) ∧
    ∀ w : Word16, (decodeWord w).isNopClass = true ↔
      ∀ i : Instr, i.isNopClass = false → w &&& i.mask ≠ i.matchBits

/-! ## Memory primitives -/

/-- The byte primitives: a written byte is read back, every other byte is as before, an address of 4096 or more raises
`OutOfBounds` (R52, R53). -/
def Obligations.ByteWriteThenRead : Prop :=
  ∀ (m : Memory) (addr : Nat) (b : Byte), Memory.wf m = true →
    (addr < 4096 → ∃ m', memWrite8 m addr b = .ok m' ∧ Memory.wf m' = true ∧ memRead8 m' addr = .ok b ∧
      memRead8 m addr = .ok (Memory.byteAt m addr) ∧
      ∀ q, q ≠ addr → memRead8 m' q = memRead8 m q ∧ Memory.byteAt m' q = Memory.byteAt m q) ∧
    (addr ≥ 4096 → memWrite8 m addr b = .error .outOfBounds ∧ memRead8 m addr = .error .outOfBounds)

/-- The word primitive: big-endian, with the bound check on `addr + 1` (R54). -/
def Obligations.WordReadIsBigEndian : Prop :=
  ∀ (m : Memory) (addr : Nat),
    (addr + 1 < 4096 → ∃ w, memRead16 m addr = .ok w ∧
      w.toNat = (Memory.byteAt m addr).toNat * 256 + (Memory.byteAt m (addr + 1)).toNat) ∧
    (addr + 1 ≥ 4096 → memRead16 m addr = .error .outOfBounds)

/-! ## STEP -/

/-- With FAULT none and a fetch in range, a STEP is the execution of the instruction the two bytes at PC decode to, at the
state with PC advanced by 2 (R100). -/
def Obligations.StepRunsTheDecodedInstruction : Prop :=
  ∀ (s : State) (i : Instr), s.fault = none → s.pc.toNat ≤ 0xFFE →
    decode [s.byte s.pc.toNat, s.byte (s.pc.toNat + 1)] = .ok (i, []) →
    step s = exec i { s with pc := s.pc + 2 }

/-- A fetch from 0x0FFF or above takes `OutOfBounds` and leaves PC and all else as it was (R101; the FAULT register is the
spec's decision D3, log entry 3). -/
def Obligations.FetchFaultKeepsEverythingElse : Prop :=
  ∀ s : State, s.fault = none → 0xFFF ≤ s.pc.toNat → step s = .next { s with fault := some .outOfBounds }

/-- While FAULT holds a cause a STEP changes nothing (R106, the spec's decision D3, log entry 3). -/
def Obligations.FaultedStepChangesNothing : Prop :=
  ∀ (s : State) (f : Fault), s.fault = some f → step s = .next s

/-- No instruction, no STEP and no schedule of operations ends in a fault outcome or a refusal: each answers a next state
(R87, R103; a fault is taken as a next state, log entry 3). -/
def Obligations.EveryRunAnswersNext : Prop :=
  (∀ (i : Instr) (s : State), ∃ t, exec i s = .next t) ∧ (∀ s : State, ∃ t, step s = .next t) ∧
    ∀ (ops : List Operation) (s : State), ∃ t, runOps ops s = .next t

/-- A word placed by `withFetchWord` is the one the next STEP runs, and the one `decodeTableWord` reads (log entry 5). -/
def Obligations.PlacedWordRunsNext : Prop :=
  ∀ (s : State) (nbits w : Nat), Memory.wf s.mem = true → s.fault = none → s.pc.toNat ≤ 0xFFE →
    ∃ i, decodeTableWord nbits w = some i ∧
      step (s.withFetchWord nbits w) = exec i { s.withFetchWord nbits w with pc := s.pc + 2 }

/-- An instruction at PC that jumps to itself is an endless loop that changes no state, for any number of STEPs
(R111). -/
def Obligations.JumpToItselfChangesNoState : Prop :=
  ∀ (s : State) (k : Nat), s.fault = none → JumpsToItself s → Host.Core.run core k s = .next s

/-! ## Control transfer -/

/-- `JP nnn`: PC is nnn and nothing else changes (R111). -/
def Obligations.JumpSetsPc : Prop :=
  ∀ (nnn : BitVec 12) (s : State), ∃ t, exec (.jp nnn) s = .next t ∧ t.pc.toNat = nnn.toNat ∧
    UnchangedOutside (· = .pc) s t

/-- `JP V0, nnn`: PC is nnn + V0, not reduced to 12 bits, and nothing else changes (R113). -/
def Obligations.JumpV0AddsV0 : Prop :=
  ∀ (nnn : BitVec 12) (s : State), ∃ t, exec (.jpV0 nnn) s = .next t ∧
    t.pc.toNat = nnn.toNat + (s.reg 0).toNat ∧ UnchangedOutside (· = .pc) s t

/-- `CALL nnn` with room: the advanced PC is pushed at SP, SP grows by one, PC is nnn, nothing else changes (R112; that
the store comes before the increment is the spec's decision D16, log entry 14). -/
def Obligations.CallPushesReturnAddress : Prop :=
  ∀ (nnn : BitVec 12) (s : State) (k : Fin 16), s.sp.val = k.val →
    ∃ t, exec (.call nnn) s = .next t ∧ t.slot k = s.pc ∧ t.sp.val = s.sp.val + 1 ∧ t.pc.toNat = nnn.toNat ∧
      UnchangedOutside (fun p => p = .pc ∨ p = .sp ∨ p = .slot k) s t

/-- `RET` with an address held: SP shrinks by one, PC is the popped slot, nothing else changes, the slot keeping its value
(R110; the stack mechanics are the spec's decision D16, log entry 14). -/
def Obligations.ReturnPopsIntoPc : Prop :=
  ∀ (s : State) (k : Fin 16), s.sp.val = k.val + 1 →
    ∃ t, exec .ret s = .next t ∧ t.sp.val = k.val ∧ t.pc = s.slot k ∧
      UnchangedOutside (fun p => p = .pc ∨ p = .sp) s t

/-- A `RET` after a `CALL`, in whatever state the callee leaves that has the stack as the CALL left it, resumes at the
instruction after the CALL with the caller's depth (R110, R112). -/
def Obligations.ReturnResumesAfterCall : Prop :=
  ∀ (nnn : BitVec 12) (s : State), s.sp.val < 16 →
    ∃ t, exec (.call nnn) s = .next t ∧
      ∀ u : State, u.sp = t.sp → u.stk = t.stk → ∃ v, exec .ret u = .next v ∧ v.pc = s.pc ∧ v.sp = s.sp

/-! ## Skips -/

/-- `SE Vx, kk` and `SNE Vx, kk`: PC moves on by 2 exactly if the comparison holds; nothing else changes (R121, R122). -/
def Obligations.SkipsOnImmediate : Prop :=
  ∀ (x : Reg) (kk : Byte) (s : State),
    (∃ t, exec (.seImm x kk) s = .next t ∧ t.pc = (if s.reg x = kk then s.pc + 2 else s.pc) ∧
      UnchangedOutside (· = .pc) s t) ∧
    ∃ t, exec (.sneImm x kk) s = .next t ∧ t.pc = (if s.reg x = kk then s.pc else s.pc + 2) ∧
      UnchangedOutside (· = .pc) s t

/-- `SE Vx, Vy` and `SNE Vx, Vy`, x = y included (R123, R124). -/
def Obligations.SkipsOnRegisters : Prop :=
  ∀ (x y : Reg) (s : State),
    (∃ t, exec (.seReg x y) s = .next t ∧ t.pc = (if s.reg x = s.reg y then s.pc + 2 else s.pc) ∧
      UnchangedOutside (· = .pc) s t) ∧
    ∃ t, exec (.sneReg x y) s = .next t ∧ t.pc = (if s.reg x = s.reg y then s.pc else s.pc + 2) ∧
      UnchangedOutside (· = .pc) s t

/-- `SKP Vx` and `SKNP Vx`: the key k is the value of Vx modulo 16 (for a value above 15 the spec's decision D11, log entry
8); exactly one of the two skips; nothing else changes (R125, R126, R127). -/
def Obligations.SkipsOnKeys : Prop :=
  ∀ (x : Reg) (s : State) (k : KeyId), k.val = (s.reg x).toNat % 16 →
    (∃ t, exec (.skp x) s = .next t ∧ t.pc = (if s.keyDown k = true then s.pc + 2 else s.pc) ∧
      UnchangedOutside (· = .pc) s t) ∧
    ∃ t, exec (.sknp x) s = .next t ∧ t.pc = (if s.keyDown k = true then s.pc else s.pc + 2) ∧
      UnchangedOutside (· = .pc) s t

/-! ## Register load, arithmetic and logic -/

/-- The loads and the logic operations: the result in Vx, nothing else changes, VF not unless x = F (R130, R132 to
R135). -/
def Obligations.LoadAndLogicResults : Prop :=
  ∀ (x y : Reg) (kk : Byte) (s : State),
    (∃ t, exec (.ldImm x kk) s = .next t ∧ t.reg x = kk ∧ UnchangedOutside (· = .reg x) s t) ∧
    (∃ t, exec (.ldReg x y) s = .next t ∧ t.reg x = s.reg y ∧ UnchangedOutside (· = .reg x) s t) ∧
    (∃ t, exec (.orReg x y) s = .next t ∧ t.reg x = s.reg x ||| s.reg y ∧ UnchangedOutside (· = .reg x) s t) ∧
    (∃ t, exec (.andReg x y) s = .next t ∧ t.reg x = s.reg x &&& s.reg y ∧ UnchangedOutside (· = .reg x) s t) ∧
    ∃ t, exec (.xorReg x y) s = .next t ∧ t.reg x = s.reg x ^^^ s.reg y ∧ UnchangedOutside (· = .reg x) s t

/-- `ADD Vx, kk`: the sum modulo 256 in Vx, no flag, nothing else changes (R131). -/
def Obligations.AddImmediateWraps : Prop :=
  ∀ (x : Reg) (kk : Byte) (s : State), ∃ t, exec (.addImm x kk) s = .next t ∧
    (t.reg x).toNat = ((s.reg x).toNat + kk.toNat) % 256 ∧ UnchangedOutside (· = .reg x) s t

/-- `ADD`, `SUB`, `SUBN` with neither operand VF: the wrapped result in Vx, the flag in VF, nothing else changes (R136,
R137, R139). The forms that name VF are in `VfAsOperandOfFlagWriters`. -/
def Obligations.AddSubtractResultsAndFlags : Prop :=
  ∀ (x y : Reg) (s : State), x ≠ 15 → y ≠ 15 →
    (∃ t, exec (.addReg x y) s = .next t ∧ (t.reg x).toNat = ((s.reg x).toNat + (s.reg y).toNat) % 256 ∧
      t.reg 15 = (if (s.reg x).toNat + (s.reg y).toNat > 255 then 1 else 0) ∧
      UnchangedOutside (fun p => p = .reg x ∨ p = .reg 15) s t) ∧
    (∃ t, exec (.sub x y) s = .next t ∧ (t.reg x).toNat = ((s.reg x).toNat + 256 - (s.reg y).toNat) % 256 ∧
      t.reg 15 = (if (s.reg x).toNat > (s.reg y).toNat then 1 else 0) ∧
      UnchangedOutside (fun p => p = .reg x ∨ p = .reg 15) s t) ∧
    ∃ t, exec (.subn x y) s = .next t ∧ (t.reg x).toNat = ((s.reg y).toNat + 256 - (s.reg x).toNat) % 256 ∧
      t.reg 15 = (if (s.reg y).toNat > (s.reg x).toNat then 1 else 0) ∧
      UnchangedOutside (fun p => p = .reg x ∨ p = .reg 15) s t

/-- `SHR` and `SHL` with x not F, for every y: Vx shifted by one, the bit shifted out in VF, nothing else changes (R138,
R140). The form x = F is in `VfAsOperandOfFlagWriters`. -/
def Obligations.ShiftResultsAndFlags : Prop :=
  ∀ (x y : Reg) (s : State), x ≠ 15 →
    (∃ t, exec (.shr x y) s = .next t ∧ (t.reg x).toNat = (s.reg x).toNat / 2 ∧
      (t.reg 15).toNat = (s.reg x).toNat % 2 ∧ UnchangedOutside (fun p => p = .reg x ∨ p = .reg 15) s t) ∧
    ∃ t, exec (.shl x y) s = .next t ∧ (t.reg x).toNat = 2 * (s.reg x).toNat % 256 ∧
      (t.reg 15).toNat = (s.reg x).toNat / 128 ∧ UnchangedOutside (fun p => p = .reg x ∨ p = .reg 15) s t

/-- VF named by a flag-writing instruction (R141, the spec's decision D8, log entry 6): with x = F the result is what VF
holds afterwards and the flag is lost; with y = F and x not F the old VF is the operand and VF then holds the flag. -/
def Obligations.VfAsOperandOfFlagWriters : Prop :=
  (∀ (y : Reg) (s : State),
    (∃ t, exec (.addReg 15 y) s = .next t ∧ (t.reg 15).toNat = ((s.reg 15).toNat + (s.reg y).toNat) % 256 ∧
      UnchangedOutside (· = .reg 15) s t) ∧
    (∃ t, exec (.sub 15 y) s = .next t ∧ (t.reg 15).toNat = ((s.reg 15).toNat + 256 - (s.reg y).toNat) % 256 ∧
      UnchangedOutside (· = .reg 15) s t) ∧
    (∃ t, exec (.subn 15 y) s = .next t ∧ (t.reg 15).toNat = ((s.reg y).toNat + 256 - (s.reg 15).toNat) % 256 ∧
      UnchangedOutside (· = .reg 15) s t) ∧
    (∃ t, exec (.shr 15 y) s = .next t ∧ (t.reg 15).toNat = (s.reg 15).toNat / 2 ∧
      UnchangedOutside (· = .reg 15) s t) ∧
    ∃ t, exec (.shl 15 y) s = .next t ∧ (t.reg 15).toNat = 2 * (s.reg 15).toNat % 256 ∧
      UnchangedOutside (· = .reg 15) s t) ∧
  ∀ (x : Reg) (s : State), x ≠ 15 →
    (∃ t, exec (.addReg x 15) s = .next t ∧ (t.reg x).toNat = ((s.reg x).toNat + (s.reg 15).toNat) % 256 ∧
      t.reg 15 = (if (s.reg x).toNat + (s.reg 15).toNat > 255 then 1 else 0) ∧
      UnchangedOutside (fun p => p = .reg x ∨ p = .reg 15) s t) ∧
    (∃ t, exec (.sub x 15) s = .next t ∧ (t.reg x).toNat = ((s.reg x).toNat + 256 - (s.reg 15).toNat) % 256 ∧
      t.reg 15 = (if (s.reg x).toNat > (s.reg 15).toNat then 1 else 0) ∧
      UnchangedOutside (fun p => p = .reg x ∨ p = .reg 15) s t) ∧
    ∃ t, exec (.subn x 15) s = .next t ∧ (t.reg x).toNat = ((s.reg 15).toNat + 256 - (s.reg x).toNat) % 256 ∧
      t.reg 15 = (if (s.reg 15).toNat > (s.reg x).toNat then 1 else 0) ∧
      UnchangedOutside (fun p => p = .reg x ∨ p = .reg 15) s t

/-- `RND Vx, kk`: Vx is the free byte of this draw masked by kk, so no bit outside kk is set and kk = 0 gives 0; nothing
else changes but the model's own counter of draws (R142; log entry 2). -/
def Obligations.RandomByteIsMasked : Prop :=
  ∀ (x : Reg) (kk : Byte) (s : State), ∃ t, exec (.rnd x kk) s = .next t ∧
    t.reg x = Config.rndByte s.rndDraws &&& kk ∧ t.reg x &&& ~~~kk = 0 ∧ (kk = 0 → t.reg x = 0) ∧
    t.rndDraws = s.rndDraws + 1 ∧ UnchangedOutside (fun p => p = .reg x ∨ p = .draws) s t

/-! ## The index register and memory transfer -/

/-- `LD I, nnn` and `LD F, Vx`: I is nnn, or the whole 8-bit Vx times 5; nothing else changes (R150, R152; that LD F uses
the whole Vx is the spec's decision D6, log entry 9). -/
def Obligations.IndexLoadResults : Prop :=
  ∀ (nnn : BitVec 12) (x : Reg) (s : State),
    (∃ t, exec (.ldI nnn) s = .next t ∧ t.i.toNat = nnn.toNat ∧ UnchangedOutside (· = .index) s t) ∧
    ∃ t, exec (.ldFVx x) s = .next t ∧ t.i.toNat = (s.reg x).toNat * 5 ∧ UnchangedOutside (· = .index) s t

/-- `ADD I, Vx`: I grows by Vx, past 12 bits unmasked and without a flag or a fault, nothing else changes (R151; the wrap
at 16 bits is the spec's decision D6, log entry 9). -/
def Obligations.AddToIndexIsUnmasked : Prop :=
  ∀ (x : Reg) (s : State), ∃ t, exec (.addIVx x) s = .next t ∧
    t.i.toNat = (s.i.toNat + (s.reg x).toNat) % 65536 ∧ UnchangedOutside (· = .index) s t

/-- `LD B, Vx` in range: the hundreds, tens and units of Vx at I, I + 1, I + 2, every other byte and everything else
unchanged (R153; that I stays is the spec's decision D15, log entry 16). -/
def Obligations.BcdStoresThreeDigits : Prop :=
  ∀ (x : Reg) (s : State), Memory.wf s.mem = true → s.ea 2 < 4096 →
    ∃ t, exec (.ldBVx x) s = .next t ∧
      (t.byte (s.ea 0)).toNat = (s.reg x).toNat / 100 ∧
      (t.byte (s.ea 1)).toNat = (s.reg x).toNat / 10 % 10 ∧
      (t.byte (s.ea 2)).toNat = (s.reg x).toNat % 10 ∧
      UnchangedOutside (fun p => ∃ k, k < 3 ∧ p = .byte (s.ea k)) s t

/-- `LD [I], Vx` in range: V0 to Vx at I to I + x, every other byte and everything else unchanged (R154, R155; that I
stays is the spec's decision D15, log entry 16). -/
def Obligations.RegisterStoreWritesV0ToVx : Prop :=
  ∀ (x : Reg) (s : State), Memory.wf s.mem = true → s.ea x.val < 4096 →
    ∃ t, exec (.ldMemVx x) s = .next t ∧
      (∀ k : Reg, k ≤ x → t.byte (s.ea k.val) = s.reg k) ∧
      UnchangedOutside (fun p => ∃ k : Nat, k ≤ x.val ∧ p = .byte (s.ea k)) s t

/-- `LD Vx, [I]` in range: V0 to Vx from I to I + x, the registers above Vx and everything else unchanged (R155,
R156; that I stays is the spec's decision D15, log entry 16). -/
def Obligations.RegisterLoadReadsV0ToVx : Prop :=
  ∀ (x : Reg) (s : State), s.ea x.val < 4096 →
    ∃ t, exec (.ldVxMem x) s = .next t ∧
      (∀ k : Reg, k ≤ x → t.reg k = s.byte (s.ea k.val)) ∧
      UnchangedOutside (fun p => ∃ k : Reg, k ≤ x ∧ p = .reg k) s t

/-- A load with the same x and the same I after a store, memory left as the store left it, gives V0 to Vx back (R156). -/
def Obligations.LoadAfterStoreRestoresRegisters : Prop :=
  ∀ (x : Reg) (s : State), Memory.wf s.mem = true → s.ea x.val < 4096 →
    ∃ t, exec (.ldMemVx x) s = .next t ∧
      ∀ u : State, u.i = s.i → u.mem = t.mem →
        ∃ w, exec (.ldVxMem x) u = .next w ∧ ∀ k : Reg, k ≤ x → w.reg k = s.reg k

/-- A store by LD B, Vx or LD [I], Vx is seen by the very next fetch, whichever of the two fetched bytes it wrote (both,
one or none: a byte not stored is the one that stood there); so is a LOAD (R66, which is the spec's inference, recorded as
its decision D23; log entry 18). -/
def Obligations.StoreIsSeenByTheNextFetch : Prop :=
  (∀ (x : Reg) (s : State), Memory.wf s.mem = true → s.pc.toNat ≤ 0xFFE →
    (s.ea 2 < 4096 → ∃ t w, exec (.ldBVx x) s = .next t ∧ fetchWord t = .ok w ∧
      WordAfterStore s 3 (fun k => BitVec.ofNat 8 (if k = 0 then (s.reg x).toNat / 100
        else if k = 1 then (s.reg x).toNat / 10 % 10 else (s.reg x).toNat % 10)) w) ∧
    (s.ea x.val < 4096 → ∃ t w, exec (.ldMemVx x) s = .next t ∧ fetchWord t = .ok w ∧
      WordAfterStore s (x.val + 1) (fun k => s.reg (Fin.ofNat 16 k)) w)) ∧
  ∀ (rom : List Byte) (s : State), Memory.wf s.mem = true → rom.length ≤ 3584 →
    ∃ w, fetchWord (envLoad rom s).1 = .ok w ∧
      w.toNat = (rom.getD 0 (s.byte 0x200)).toNat * 256 + (rom.getD 1 (s.byte 0x201)).toNat

/-! ## Display -/

/-- `CLS`: every cell false, nothing else changes (R161). -/
def Obligations.ClearTurnsEveryCellOff : Prop :=
  ∀ s : State, ∃ t, exec .cls s = .next t ∧ (∀ c r, t.cell c r = false) ∧
    UnchangedOutside (fun p => ∃ c r, p = .cell c r) s t

/-- `DRW Vx, Vy, n` in range, or with n = 0 whatever I holds: the cells the sprite covers are toggled, the others not; VF is
1 if a covered cell was lit, else 0; nothing else changes (R160, R162). With x = F or y = F the coordinate is the old VF,
the spec's decision D9 (log entry 17); that I stays is its decision D15 (log entry 16). -/
def Obligations.DrawTogglesCoveredCells : Prop :=
  ∀ (x y : Reg) (n : Fin 16) (s : State), (n.val = 0 ∨ s.ea (n.val - 1) < 4096) →
    ∃ t, exec (.drw x y n) s = .next t ∧
      (∀ c r, SpriteCovers s (s.reg x) (s.reg y) n.val c r → t.cell c r = !s.cell c r) ∧
      (∀ c r, ¬ SpriteCovers s (s.reg x) (s.reg y) n.val c r → t.cell c r = s.cell c r) ∧
      ((∃ c r, SpriteCovers s (s.reg x) (s.reg y) n.val c r ∧ s.cell c r = true) → t.reg 15 = 1) ∧
      ((¬ ∃ c r, SpriteCovers s (s.reg x) (s.reg y) n.val c r ∧ s.cell c r = true) → t.reg 15 = 0) ∧
      UnchangedOutside (fun p => p = .reg 15 ∨ ∃ c r, p = .cell c r) s t

/-- Drawing the same sprite at the same place a second time restores the framebuffer, and reports a collision if the
sprite covers a cell and covered no lit cell the first time (R162, R163; the law for every sprite is the spec's
inference from R162). With x = F or y = F the coordinate is the old VF, its decision D9 (log entry 17). -/
def Obligations.DrawingTwiceRestoresTheScreen : Prop :=
  ∀ (x y : Reg) (n : Fin 16) (s : State), (n.val = 0 ∨ s.ea (n.val - 1) < 4096) →
    ∃ t, exec (.drw x y n) s = .next t ∧
      ∀ u : State, u.fb = t.fb → u.mem = s.mem → u.i = s.i → u.reg x = s.reg x → u.reg y = s.reg y →
        ∃ w, exec (.drw x y n) u = .next w ∧ w.fb = s.fb ∧
          ((∃ c r, SpriteCovers s (s.reg x) (s.reg y) n.val c r) →
            (∀ c r, SpriteCovers s (s.reg x) (s.reg y) n.val c r → s.cell c r = false) → w.reg 15 = 1)

/-! ## Timers and keys -/

/-- `LD Vx, DT`, `LD DT, Vx`, `LD ST, Vx`: the named register receives the value, nothing else changes, and TONE follows ST
at once (R170, R172, R173). -/
def Obligations.TimerTransfers : Prop :=
  ∀ (x : Reg) (s : State),
    (∃ t, exec (.ldVxDt x) s = .next t ∧ t.reg x = s.dt ∧ UnchangedOutside (· = .reg x) s t) ∧
    (∃ t, exec (.ldDtVx x) s = .next t ∧ t.dt = s.reg x ∧ UnchangedOutside (· = .dt) s t) ∧
    ∃ t, exec (.ldStVx x) s = .next t ∧ t.st = s.reg x ∧ (t.tone = true ↔ (s.reg x).toNat > 0) ∧
      UnchangedOutside (· = .st) s t

/-- `LD Vx, K`: completes at once; with a key latched Vx receives its number and the latch stays; with none latched nothing
changes (R171; the empty case is the spec's decision D10, log entry 7). -/
def Obligations.LatchReadNeverWaits : Prop :=
  ∀ (x : Reg) (s : State), ∃ t, exec (.ldVxK x) s = .next t ∧
    (∀ k : KeyId, s.latch = some k → (t.reg x).toNat = k.val) ∧
    (s.latch = none → t.reg x = s.reg x) ∧ UnchangedOutside (· = .reg x) s t

/-! ## The no-op class -/

/-- A no-op-class word mutates nothing, and the STEP that runs it only advances PC by 2 (R104). -/
def Obligations.NopClassOnlyAdvancesPc : Prop :=
  (∀ (w : BitVec 12) (s : State),
    exec (.nopClass0 w) s = .next s ∧ exec (.nopClass5 w) s = .next s ∧ exec (.nopClass8 w) s = .next s ∧
    exec (.nopClass9 w) s = .next s ∧ exec (.nopClassE w) s = .next s ∧ exec (.nopClassF w) s = .next s) ∧
  ∀ (s : State) (op : Word16), s.fault = none → fetchWord s = .ok op → (decodeWord op).isNopClass = true →
    step s = .next { s with pc := s.pc + 2 }

/-! ## Faults -/

/-- An instruction raises exactly the fault the tables of R200 to R203 give for its state, and then changes nothing but
FAULT; where they give none, FAULT stays none (R201, R202, R203, R207; the FAULT register and the all-or-nothing effect are
the spec's decisions D3 and D4, log entries 3 and 11; that addresses do not wrap is D5, log entry 9). -/
def Obligations.FaultsExactlyWhereListed : Prop :=
  ∀ (i : Instr) (s : State), s.fault = none →
    ∃ t, exec i s = .next t ∧ t.fault = faultIn i s ∧
      (faultIn i s ≠ none → UnchangedOutside (· = .fault) s t)

/-- Once FAULT is set, no schedule without a RESET clears or changes it, or changes V, I, SP, STK or FB; a LOAD still sets PC
and MEM, a TICK still counts the timers, and key events still change KEY and LATCH (R35, R106, R182, R192, R210; the spec's
decisions D3 and D21, log entry 3). That a LOAD keeps SP, STK and FAULT is its decision D17 (log entry 15). -/
def Obligations.FaultStaysUntilReset : Prop :=
  ∀ (ops : List Operation) (s : State) (f : Fault), s.fault = some f → (∀ font, Operation.reset font ∉ ops) →
    ∃ t, runOps ops s = .next t ∧ t.fault = some f ∧ t.v = s.v ∧ t.i = s.i ∧ t.sp = s.sp ∧ t.stk = s.stk ∧
      t.fb = s.fb

/-! ## Whole-machine rules -/

/-- Each part of the state is changed by its listed writers only: V and VF, I, PC, SP, STK, DT, ST, MEM, FB; KEY and LATCH
by no instruction (R21 to R28, R30, R32 to R34). LD B and LD [I], Vx change no byte of MEM but those at `s.ea k`, k < 3 or
k ≤ x, DRW no cell but those the sprite covers (R162), CALL no slot but that at SP, RND beside Vx the model's own counter
alone (log entry 2). A faulting instruction changes FAULT alone (the spec's decisions D3 and D4, log entries 3 and 11), and
addresses do not wrap (D5, log entry 9). That I stays for DRW, LD B, LD [I] and LD Vx, [I] is its decision D15 (log entry
16); the slot a CALL writes is D16 (log entry 14); that DRW with x = F or y = F draws at the old VF is D9 (log entry 17). -/
def Obligations.EachPartHasOnlyItsWriters : Prop :=
  ∀ (i : Instr) (s t : State), exec i s = .next t → UnchangedOutside (mayWrite i s) s t

/-- Every STEP, from any state with the invariant, gives a state with the invariant: canonical memory, PC at most 0x10FE,
return addresses at most 0x1000, a latched key down (bounds the spec infers in R24 and R171). What a fault leaves is its
decisions D3 and D4 (log entries 3 and 11). -/
def Obligations.StepKeepsTheInvariant : Prop :=
  ∀ s t : State, Inv s → step s = .next t → Inv t

/-- Every schedule of operations, RESET, LOAD, STEP, TICK, key events and observations in any order, keeps the invariant
(R24, R171, R191; the bounds are the spec's inferences). What a LOAD keeps and a RESET at any time are its decisions D17 and
D1 (log entry 15), what a fault leaves D3, D4 and D21 (log entries 3 and 11). -/
def Obligations.SchedulesKeepTheInvariant : Prop :=
  ∀ (ops : List Operation) (s t : State), Inv s → runOps ops s = .next t → Inv t

/-- The reset state has the invariant, for every FONT. -/
def Obligations.ResetHasTheInvariant : Prop :=
  Inv State.reset ∧ ∀ font : Vector Byte 80, Inv (State.resetWith font)

/-- DT and ST never grow under any operation but a STEP that runs Fx15 or Fx18, and a STEP that runs neither leaves them as
they are (R27, R28, R240; a STEP while FAULT is set moves nothing by the spec's decision D3, log entry 3). -/
def Obligations.TimersMoveOnlyAsListed : Prop :=
  ∀ (op : Operation) (s t : State) (r : Response), operate op s = .next (t, r) →
    (op ≠ .step → t.dt.toNat ≤ s.dt.toNat ∧ t.st.toNat ≤ s.st.toNat) ∧
    (op = .step → ((∀ w x, fetchWord s = .ok w → decodeWord w ≠ .ldDtVx x) → t.dt = s.dt) ∧
      ((∀ w x, fetchWord s = .ok w → decodeWord w ≠ .ldStVx x) → t.st = s.st))

/-! ## The environment -/

/-- RESET puts every element of state at its reset value, with FONT in the first 80 bytes (R20, R180, R230; PC = 0x0000 is
the spec's decision D2, log entry 10; the model's own counter goes on, log entry 2). -/
def Obligations.ResetValues : Prop :=
  ∀ (font : Vector Byte 80) (s : State),
    (∀ r, (envReset font s).reg r = 0) ∧ (envReset font s).i = 0 ∧ (envReset font s).pc = 0 ∧
    (envReset font s).sp = 0 ∧ (∀ k, (envReset font s).slot k = 0) ∧ (envReset font s).dt = 0 ∧
    (envReset font s).st = 0 ∧ (∀ a : Fin 80, (envReset font s).byte a.val = font.get a) ∧
    (∀ a, 80 ≤ a → a < 4096 → (envReset font s).byte a = 0) ∧ (∀ c r, (envReset font s).cell c r = false) ∧
    (∀ k, (envReset font s).keyDown k = false) ∧ (envReset font s).latch = none ∧
    (envReset font s).fault = none ∧ (envReset font s).rndDraws = s.rndDraws

/-- LOAD of at most 3584 bytes puts them at 0x200 upward and PC at 0x0200 and changes nothing else; a longer one answers
`ProgramTooLarge` and changes nothing (R182, R183; what LOAD keeps is the spec's decision D17, log entry 15). -/
def Obligations.LoadCopiesTheRom : Prop :=
  ∀ (rom : List Byte) (s : State), Memory.wf s.mem = true →
    (rom.length ≤ 3584 → ∃ t, envLoad rom s = (t, .ok) ∧ t.pc = 0x200 ∧
      (∀ k (h : k < rom.length), t.byte (0x200 + k) = rom[k]) ∧
      UnchangedOutside (fun p => p = .pc ∨ ∃ k, k < rom.length ∧ p = .byte (0x200 + k)) s t) ∧
    (rom.length > 3584 → envLoad rom s = (s, .programTooLarge))

/-- k TICKs count each timer down by k, stopping at zero, the two independently, and change nothing else; so a timer set to
v reaches zero after exactly v of them (R184). -/
def Obligations.TicksCountDownToZero : Prop :=
  ∀ (k : Nat) (s : State), ∃ t, runOps (List.replicate k .tick) s = .next t ∧
    t.dt.toNat = s.dt.toNat - k ∧ t.st.toNat = s.st.toNat - k ∧
    UnchangedOutside (fun p => p = .dt ∨ p = .st) s t

/-- KEY_DOWN sets the key and the latch; KEY_UP clears the key and, whichever key it is, the latch; neither changes
anything else (R185, R186; that a KEY_DOWN of a key already down is no exception is an inference of the spec in R185). -/
def Obligations.KeyEventsSetKeyAndLatch : Prop :=
  ∀ (k : KeyId) (s : State),
    ((envKeyDown k s).keyDown k = true ∧ (envKeyDown k s).latch = some k ∧
      UnchangedOutside (fun p => p = .key k ∨ p = .latch) s (envKeyDown k s)) ∧
    (envKeyUp k s).keyDown k = false ∧ (envKeyUp k s).latch = none ∧
      UnchangedOutside (fun p => p = .key k ∨ p = .latch) s (envKeyUp k s)

/-- The observations give the cells, DT, ST, TONE = (ST > 0) and FAULT, and change nothing (R187, R188; the FAULT port is
the spec's decision D3, log entry 3). -/
def Obligations.ObservationsChangeNothing : Prop :=
  ∀ s : State,
    (∃ fb, operate .readFb s = .next (s, .frame fb) ∧ ∀ c r, Framebuffer.cell fb c r = s.cell c r) ∧
    ∃ p, operate .readStatus s = .next (s, .status p) ∧ p.dt = s.dt ∧ p.st = s.st ∧
      (p.tone = true ↔ s.st.toNat > 0) ∧ p.fault = s.fault
end

