-- ==== Sys2Proof/Laws/Decode.lean ====
section
/-! SUPPORT. The fields of a word and the words of the formats: reading a field of an encoded format gives the field
back, and putting the fields of a word together gives the word back (rules R81, R82). -/

namespace Sys2Proof

/-- Two adjacent slices of a word put together are the slice that spans them. -/
theorem append_slices (w : Word16) (lo n m : Nat) :
    w.extractLsb' (lo + m) n ++ w.extractLsb' lo m = w.extractLsb' lo (n + m) :=
  BitVec.extractLsb'_append_extractLsb'_eq_extractLsb' rfl

theorem ofNat_nibbleAt (op : Word16) (lo : Nat) : BitVec.ofNat 4 (nibbleAt op lo).val = op.extractLsb' lo 4 :=
  BitVec.eq_of_toNat_eq (by
    simp only [nibbleAt, BitVec.toNat_ofNat]
    exact Nat.mod_eq_of_lt (op.extractLsb' lo 4).isLt)

/-- The low slices of the address field are the low slices of the word. -/
theorem slice_fieldNNN (op : Word16) (lo len : Nat) (h : lo + len ≤ 12) :
    (fieldNNN op).extractLsb' lo len = op.extractLsb' lo len := by
  ext k hk
  simp only [fieldNNN, BitVec.getElem_extractLsb', BitVec.getLsbD_extractLsb', Nat.zero_add, decide_eq_true_eq,
    Bool.and_eq_right_iff_imp]
  omega

theorem fieldNNN_low4 (op : Word16) : (fieldNNN op).extractLsb' 0 4 = BitVec.ofNat 4 (fieldN op).val := by
  rw [slice_fieldNNN op 0 4 (by omega), fieldN, ofNat_nibbleAt]

theorem fieldNNN_low8 (op : Word16) : (fieldNNN op).extractLsb' 0 8 = fieldKK op :=
  slice_fieldNNN op 0 8 (by omega)

/-! ## Putting a word together again -/

theorem formatA_fields (op : Word16) (f : BitVec 4) (h : (nibbleAt op 12).val = f.toNat) :
    formatA f (fieldNNN op) = op := by
  have hf : op.extractLsb' 12 4 = f := BitVec.eq_of_toNat_eq h
  rw [← hf]
  exact (append_slices op 0 4 12).trans BitVec.extractLsb'_eq_self

theorem formatK_fields (op : Word16) (f : BitVec 4) (h : (nibbleAt op 12).val = f.toNat) :
    formatK f (fieldX op) (fieldKK op) = op := by
  rw [formatK, fieldX, ofNat_nibbleAt]
  exact (congrArg (f ++ ·) (append_slices op 0 4 8)).trans (formatA_fields op f h)

theorem formatR_fields (op : Word16) (f : BitVec 4) (h : (nibbleAt op 12).val = f.toNat) :
    formatR f (fieldX op) (fieldY op) (BitVec.ofNat 4 (fieldN op).val) = op := by
  rw [formatR, fieldY, fieldN, ofNat_nibbleAt, ofNat_nibbleAt]
  exact (congrArg (fun b : Byte => formatK f (fieldX op) b) (append_slices op 0 4 4)).trans (formatK_fields op f h)

/-! ## Reading the fields of a format -/

@[simp] theorem family_formatA (f : BitVec 4) (w : BitVec 12) : (nibbleAt (formatA f w) 12).val = f.toNat :=
  congrArg BitVec.toNat BitVec.extractLsb'_append_eq_left

@[simp] theorem fieldNNN_formatA (f : BitVec 4) (w : BitVec 12) : fieldNNN (formatA f w) = w :=
  BitVec.extractLsb'_append_eq_right

@[simp] theorem family_formatK (f : BitVec 4) (x : Reg) (k : Byte) :
    (nibbleAt (formatK f x k) 12).val = f.toNat :=
  family_formatA f _

@[simp] theorem fieldKK_formatK (f : BitVec 4) (x : Reg) (k : Byte) : fieldKK (formatK f x k) = k := by
  rw [← fieldNNN_low8, show fieldNNN (formatK f x k) = _ from fieldNNN_formatA f _,
    BitVec.extractLsb'_append_eq_right]

@[simp] theorem fieldX_formatK (f : BitVec 4) (x : Reg) (k : Byte) : fieldX (formatK f x k) = x := by
  refine Fin.ext ?_
  show ((formatK f x k).extractLsb' 8 4).toNat = x.val
  rw [← slice_fieldNNN _ 8 4 (by omega), show fieldNNN (formatK f x k) = _ from fieldNNN_formatA f _,
    BitVec.extractLsb'_append_eq_left, BitVec.toNat_ofNat, Nat.mod_eq_of_lt x.isLt]

@[simp] theorem family_formatR (f : BitVec 4) (x y : Reg) (n : BitVec 4) :
    (nibbleAt (formatR f x y n) 12).val = f.toNat :=
  family_formatA f _

@[simp] theorem fieldX_formatR (f : BitVec 4) (x y : Reg) (n : BitVec 4) : fieldX (formatR f x y n) = x :=
  fieldX_formatK f x _

@[simp] theorem fieldY_formatR (f : BitVec 4) (x y : Reg) (n : BitVec 4) : fieldY (formatR f x y n) = y := by
  refine Fin.ext ?_
  show ((formatR f x y n).extractLsb' 4 4).toNat = y.val
  have hkk : fieldKK (formatR f x y n) = BitVec.ofNat 4 y.val ++ n := fieldKK_formatK f x _
  have hs : (fieldKK (formatR f x y n)).extractLsb' 4 4 = (formatR f x y n).extractLsb' 4 4 := by
    ext k hk
    simp only [fieldKK, BitVec.getElem_extractLsb', BitVec.getLsbD_extractLsb', Nat.zero_add]
    simp only [decide_eq_true_eq, Bool.and_eq_right_iff_imp]
    omega
  rw [← hs, hkk, BitVec.extractLsb'_append_eq_left, BitVec.toNat_ofNat, Nat.mod_eq_of_lt y.isLt]

@[simp] theorem fieldN_formatR (f : BitVec 4) (x y : Reg) (n : BitVec 4) :
    (fieldN (formatR f x y n)).val = n.toNat := by
  show ((formatR f x y n).extractLsb' 0 4).toNat = n.toNat
  have hkk : fieldKK (formatR f x y n) = BitVec.ofNat 4 y.val ++ n := fieldKK_formatK f x _
  have hs : (fieldKK (formatR f x y n)).extractLsb' 0 4 = (formatR f x y n).extractLsb' 0 4 := by
    ext k hk
    simp only [fieldKK, BitVec.getElem_extractLsb', BitVec.getLsbD_extractLsb', Nat.zero_add]
    simp only [decide_eq_true_eq, Bool.and_eq_right_iff_imp]
    omega
  rw [← hs, hkk, BitVec.extractLsb'_append_eq_right]

/-! ## Bytes -/

/-- The stored bytes of a word make the word again (R55). -/
@[simp] theorem wordOfBytes_bytesOfWord (op : Word16) :
    wordOfBytes (op.extractLsb' 8 8) (op.extractLsb' 0 8) = op :=
  (append_slices op 0 8 8).trans BitVec.extractLsb'_eq_self

end Sys2Proof
end

