-- ==== Sys2Proof/Laws/State.lean ====
section
/-! SUPPORT. One lemma per field per update, and reading a register or a cell after a write. -/

namespace Sys2Proof.Machine

/-! ## `setReg` -/

@[simp] theorem State.setReg_i (s : State) (r : Reg) (b : Byte) : (s.setReg r b).i = s.i := rfl
@[simp] theorem State.setReg_pc (s : State) (r : Reg) (b : Byte) : (s.setReg r b).pc = s.pc := rfl
@[simp] theorem State.setReg_sp (s : State) (r : Reg) (b : Byte) : (s.setReg r b).sp = s.sp := rfl
@[simp] theorem State.setReg_stk (s : State) (r : Reg) (b : Byte) : (s.setReg r b).stk = s.stk := rfl
@[simp] theorem State.setReg_dt (s : State) (r : Reg) (b : Byte) : (s.setReg r b).dt = s.dt := rfl
@[simp] theorem State.setReg_st (s : State) (r : Reg) (b : Byte) : (s.setReg r b).st = s.st := rfl
@[simp] theorem State.setReg_mem (s : State) (r : Reg) (b : Byte) : (s.setReg r b).mem = s.mem := rfl
@[simp] theorem State.setReg_fb (s : State) (r : Reg) (b : Byte) : (s.setReg r b).fb = s.fb := rfl
@[simp] theorem State.setReg_key (s : State) (r : Reg) (b : Byte) : (s.setReg r b).key = s.key := rfl
@[simp] theorem State.setReg_latch (s : State) (r : Reg) (b : Byte) : (s.setReg r b).latch = s.latch := rfl
@[simp] theorem State.setReg_fault (s : State) (r : Reg) (b : Byte) : (s.setReg r b).fault = s.fault := rfl
@[simp] theorem State.setReg_rndDraws (s : State) (r : Reg) (b : Byte) :
    (s.setReg r b).rndDraws = s.rndDraws := rfl
@[simp] theorem State.setReg_slot (s : State) (r : Reg) (b : Byte) (k : Fin 16) :
    (s.setReg r b).slot k = s.slot k := rfl
@[simp] theorem State.setReg_byte (s : State) (r : Reg) (b : Byte) (a : Nat) :
    (s.setReg r b).byte a = s.byte a := rfl
@[simp] theorem State.setReg_cell (s : State) (r : Reg) (b : Byte) (c : Fin 64) (w : Fin 32) :
    (s.setReg r b).cell c w = s.cell c w := rfl
@[simp] theorem State.setReg_keyDown (s : State) (r : Reg) (b : Byte) (k : KeyId) :
    (s.setReg r b).keyDown k = s.keyDown k := rfl

/-- Reading a register after writing one (R21: "holds exactly the last value written to it"). -/
theorem State.reg_setReg (s : State) (r q : Reg) (b : Byte) :
    (s.setReg r b).reg q = if q = r then b else s.reg q := by
  simp only [State.reg, State.setReg, Vector.get_eq_getElem, Vector.getElem_set, Fin.ext_iff, eq_comm]

@[simp] theorem State.reg_setReg_same (s : State) (r : Reg) (b : Byte) : (s.setReg r b).reg r = b := by
  simp [State.reg_setReg]

theorem State.reg_setReg_other (s : State) {r q : Reg} (b : Byte) (h : q ≠ r) : (s.setReg r b).reg q = s.reg q := by
  simp [State.reg_setReg, h]

/-! ## `advance` -/

@[simp] theorem State.advance_v (s : State) : s.advance.v = s.v := rfl
@[simp] theorem State.advance_reg (s : State) (r : Reg) : s.advance.reg r = s.reg r := rfl
@[simp] theorem State.advance_i (s : State) : s.advance.i = s.i := rfl
@[simp] theorem State.advance_pc (s : State) : s.advance.pc = s.pc + 2 := rfl
@[simp] theorem State.advance_sp (s : State) : s.advance.sp = s.sp := rfl
@[simp] theorem State.advance_stk (s : State) : s.advance.stk = s.stk := rfl
@[simp] theorem State.advance_slot (s : State) (k : Fin 16) : s.advance.slot k = s.slot k := rfl
@[simp] theorem State.advance_dt (s : State) : s.advance.dt = s.dt := rfl
@[simp] theorem State.advance_st (s : State) : s.advance.st = s.st := rfl
@[simp] theorem State.advance_mem (s : State) : s.advance.mem = s.mem := rfl
@[simp] theorem State.advance_byte (s : State) (a : Nat) : s.advance.byte a = s.byte a := rfl
@[simp] theorem State.advance_fb (s : State) : s.advance.fb = s.fb := rfl
@[simp] theorem State.advance_cell (s : State) (c : Fin 64) (w : Fin 32) : s.advance.cell c w = s.cell c w := rfl
@[simp] theorem State.advance_key (s : State) : s.advance.key = s.key := rfl
@[simp] theorem State.advance_keyDown (s : State) (k : KeyId) : s.advance.keyDown k = s.keyDown k := rfl
@[simp] theorem State.advance_latch (s : State) : s.advance.latch = s.latch := rfl
@[simp] theorem State.advance_fault (s : State) : s.advance.fault = s.fault := rfl
@[simp] theorem State.advance_rndDraws (s : State) : s.advance.rndDraws = s.rndDraws := rfl

/-! ## `loadRegs` -/

@[simp] theorem State.loadRegs_i (s : State) (bs : List Byte) : (s.loadRegs bs).i = s.i := rfl
@[simp] theorem State.loadRegs_pc (s : State) (bs : List Byte) : (s.loadRegs bs).pc = s.pc := rfl
@[simp] theorem State.loadRegs_sp (s : State) (bs : List Byte) : (s.loadRegs bs).sp = s.sp := rfl
@[simp] theorem State.loadRegs_stk (s : State) (bs : List Byte) : (s.loadRegs bs).stk = s.stk := rfl
@[simp] theorem State.loadRegs_slot (s : State) (bs : List Byte) (k : Fin 16) :
    (s.loadRegs bs).slot k = s.slot k := rfl
@[simp] theorem State.loadRegs_dt (s : State) (bs : List Byte) : (s.loadRegs bs).dt = s.dt := rfl
@[simp] theorem State.loadRegs_st (s : State) (bs : List Byte) : (s.loadRegs bs).st = s.st := rfl
@[simp] theorem State.loadRegs_mem (s : State) (bs : List Byte) : (s.loadRegs bs).mem = s.mem := rfl
@[simp] theorem State.loadRegs_byte (s : State) (bs : List Byte) (a : Nat) :
    (s.loadRegs bs).byte a = s.byte a := rfl
@[simp] theorem State.loadRegs_fb (s : State) (bs : List Byte) : (s.loadRegs bs).fb = s.fb := rfl
@[simp] theorem State.loadRegs_cell (s : State) (bs : List Byte) (c : Fin 64) (w : Fin 32) :
    (s.loadRegs bs).cell c w = s.cell c w := rfl
@[simp] theorem State.loadRegs_key (s : State) (bs : List Byte) : (s.loadRegs bs).key = s.key := rfl
@[simp] theorem State.loadRegs_keyDown (s : State) (bs : List Byte) (k : KeyId) :
    (s.loadRegs bs).keyDown k = s.keyDown k := rfl
@[simp] theorem State.loadRegs_latch (s : State) (bs : List Byte) : (s.loadRegs bs).latch = s.latch := rfl
@[simp] theorem State.loadRegs_fault (s : State) (bs : List Byte) : (s.loadRegs bs).fault = s.fault := rfl
@[simp] theorem State.loadRegs_rndDraws (s : State) (bs : List Byte) :
    (s.loadRegs bs).rndDraws = s.rndDraws := rfl

/-- A register after a load: the byte at its place in the list, its old value past the list's end. -/
theorem State.reg_loadRegs (s : State) (bs : List Byte) (r : Reg) :
    (s.loadRegs bs).reg r = bs.getD r.val (s.reg r) := by
  simp [State.loadRegs, State.reg, Vector.get_eq_getElem]

/-! ## The bytes `Fx55` stores -/

@[simp] theorem State.length_regsUpTo (s : State) (x : Reg) : (s.regsUpTo x).length = x.val + 1 := by
  simp [State.regsUpTo]

/-- The k-th byte is register V[k]. -/
theorem State.getElem_regsUpTo (s : State) (x r : Reg) (h : r.val < (s.regsUpTo x).length) :
    (s.regsUpTo x)[r.val] = s.reg r := by
  simp [State.regsUpTo, State.reg, Vector.get_eq_getElem]

@[simp] theorem length_bcdDigits (b : Byte) : (bcdDigits b).length = 3 := rfl

/-! ## The framebuffer -/

/-- Reading a cell after writing one. -/
theorem Framebuffer.cell_setCell (fb : Framebuffer) (c d : Fin 64) (r q : Fin 32) (b : Bool) :
    Framebuffer.cell (Framebuffer.setCell fb c r b) d q = if d = c ∧ q = r then b else Framebuffer.cell fb d q := by
  simp only [Framebuffer.cell, Framebuffer.setCell, Vector.get_eq_getElem, Vector.getElem_set, Fin.ext_iff]
  by_cases hc : d.val = c.val
  · by_cases hr : q.val = r.val
    · simp [hc, hr]
    · simp [hc, hr, Ne.symm hr]
  · simp [hc, Ne.symm hc]

/-- Reading a cell after toggling one. -/
theorem Framebuffer.cell_toggle (fb : Framebuffer) (c d : Fin 64) (r q : Fin 32) :
    Framebuffer.cell (Framebuffer.toggle fb c r) d q
      = (Framebuffer.cell fb d q ^^ decide (d = c ∧ q = r)) := by
  rw [Framebuffer.toggle, Framebuffer.cell_setCell]
  by_cases h : d = c ∧ q = r
  · obtain ⟨rfl, rfl⟩ := h; simp
  · simp [h]

@[simp] theorem Framebuffer.cell_blank (c : Fin 64) (r : Fin 32) :
    Framebuffer.cell Framebuffer.blank c r = false := by
  simp [Framebuffer.cell, Framebuffer.blank, Vector.get_eq_getElem]

/-- Two framebuffers with the same cells are equal. -/
theorem Framebuffer.ext_cell {fb fb' : Framebuffer}
    (h : ∀ c r, Framebuffer.cell fb c r = Framebuffer.cell fb' c r) : fb = fb' := by
  refine Vector.ext fun c hc => Vector.ext fun r hr => ?_
  simpa [Framebuffer.cell, Vector.get_eq_getElem] using h ⟨c, hc⟩ ⟨r, hr⟩

/-! ## Keys -/

/-- A key after KEY_DOWN. -/
theorem keyDown_envKeyDown (s : State) (k q : KeyId) :
    (envKeyDown k s).keyDown q = if q = k then true else s.keyDown q := by
  simp only [State.keyDown, envKeyDown, Vector.get_eq_getElem, Vector.getElem_set, Fin.ext_iff, eq_comm]

/-- A key after KEY_UP. -/
theorem keyDown_envKeyUp (s : State) (k q : KeyId) :
    (envKeyUp k s).keyDown q = if q = k then false else s.keyDown q := by
  simp only [State.keyDown, envKeyUp, Vector.get_eq_getElem, Vector.getElem_set, Fin.ext_iff, eq_comm]

end Sys2Proof.Machine
end

