-- ==== Sys2Proof/Laws/Display.lean ====
section
/-! SUPPORT. What drawing a sprite does: each cell the sprite covers is toggled once, and the collision tells whether one
of them was lit before (rules R160, R162). -/

namespace Sys2Proof.Machine

/-- The cells a list of columns of one sprite byte toggles, in order. -/
def colPoints (px : Byte) (r : Fin 32) (b : Byte) : List Nat → List (Fin 64 × Fin 32)
  | [] => []
  | col :: cols => if spriteBit b col then (columnOf px col, r) :: colPoints px r b cols else colPoints px r b cols

/-- The cells a sprite toggles, in order. -/
def rowPoints (px py : Byte) : Nat → List Byte → List (Fin 64 × Fin 32)
  | _, [] => []
  | row, b :: bs => colPoints px (rowOf py row) b [0, 1, 2, 3, 4, 5, 6, 7] ++ rowPoints px py (row + 1) bs

/-- Toggle the cells of a list in order. -/
def drawPoints (pts : List (Fin 64 × Fin 32)) (d : Framebuffer × Bool) : Framebuffer × Bool :=
  pts.foldl (fun d p => drawPixel p.1 p.2 d) d

theorem drawCols_eq_drawPoints (px : Byte) (r : Fin 32) (b : Byte) (cols : List Nat) (d : Framebuffer × Bool) :
    drawCols px r b cols d = drawPoints (colPoints px r b cols) d := by
  induction cols generalizing d with
  | nil => rfl
  | cons col cols ih =>
    rw [drawCols, colPoints, ih]
    split <;> simp [drawPoints]

theorem drawRows_eq_drawPoints (px py : Byte) (row : Nat) (bs : List Byte) (d : Framebuffer × Bool) :
    drawRows px py row bs d = drawPoints (rowPoints px py row bs) d := by
  induction bs generalizing row d with
  | nil => rfl
  | cons b bs ih => rw [drawRows, rowPoints, ih, drawCols_eq_drawPoints, drawPoints, drawPoints, drawPoints,
      List.foldl_append]

/-- A cell after toggling distinct cells: changed exactly if it is one of them. -/
theorem cell_drawPoints {pts : List (Fin 64 × Fin 32)} (h : pts.Nodup) (d : Framebuffer × Bool) (c : Fin 64)
    (r : Fin 32) :
    Framebuffer.cell (drawPoints pts d).1 c r = (Framebuffer.cell d.1 c r ^^ decide ((c, r) ∈ pts)) := by
  induction pts generalizing d with
  | nil => simp [drawPoints]
  | cons p pts ih =>
    obtain ⟨hp, hpts⟩ := List.nodup_cons.mp h
    rw [drawPoints, List.foldl_cons, ← drawPoints, ih hpts, drawPixel, Framebuffer.cell_toggle]
    by_cases hc : (c, r) = p
    · subst hc; simp [hp]
    · have : ¬ (c = p.1 ∧ r = p.2) := fun hh => hc (Prod.ext hh.1 hh.2)
      simp [hc, this]

/-- The collision of toggling distinct cells: one of them was lit before (R160, R162). -/
theorem collision_drawPoints {pts : List (Fin 64 × Fin 32)} (h : pts.Nodup) (d : Framebuffer × Bool) :
    (drawPoints pts d).2 = true ↔ d.2 = true ∨ ∃ p ∈ pts, Framebuffer.cell d.1 p.1 p.2 = true := by
  induction pts generalizing d with
  | nil => simp [drawPoints]
  | cons p pts ih =>
    obtain ⟨hp, hpts⟩ := List.nodup_cons.mp h
    rw [drawPoints, List.foldl_cons, ← drawPoints, ih hpts, drawPixel]
    have hcell : ∀ q ∈ pts, Framebuffer.cell (Framebuffer.toggle d.1 p.1 p.2) q.1 q.2
        = Framebuffer.cell d.1 q.1 q.2 := by
      intro q hq
      have hne : ¬ (q.1 = p.1 ∧ q.2 = p.2) := fun hh => hp (Prod.ext hh.1 hh.2 ▸ hq)
      simp [Framebuffer.cell_toggle, hne]
    simp only [Bool.or_eq_true, List.mem_cons, exists_eq_or_imp, or_assoc]
    refine or_congr_right (or_congr_right ⟨?_, ?_⟩)
    · rintro ⟨q, hq, hl⟩; exact ⟨q, hq, (hcell q hq) ▸ hl⟩
    · rintro ⟨q, hq, hl⟩; exact ⟨q, hq, (hcell q hq).symm ▸ hl⟩

theorem mem_colPoints {px : Byte} {r : Fin 32} {b : Byte} {cols : List Nat} {p : Fin 64 × Fin 32} :
    p ∈ colPoints px r b cols ↔ ∃ col ∈ cols, spriteBit b col = true ∧ p = (columnOf px col, r) := by
  induction cols with
  | nil => simp [colPoints]
  | cons col cols ih =>
    rw [colPoints]
    split <;> rename_i h <;> simp [ih, h]

theorem mem_rowPoints {px py : Byte} {row : Nat} {bs : List Byte} {p : Fin 64 × Fin 32} :
    p ∈ rowPoints px py row bs ↔
      ∃ k, k < bs.length ∧ ∃ col, col < 8 ∧ spriteBit (bs.getD k 0) col = true ∧
        p = (columnOf px col, rowOf py (row + k)) := by
  induction bs generalizing row with
  | nil => simp [rowPoints]
  | cons b bs ih =>
    have h8 : ∀ col, col ∈ [0, 1, 2, 3, 4, 5, 6, 7] ↔ col < 8 := by
      intro col
      simp only [List.mem_cons, List.not_mem_nil, or_false]
      omega
    rw [rowPoints, List.mem_append, mem_colPoints, ih]
    constructor
    · rintro (⟨col, hcol, hb, hp⟩ | ⟨k, hk, col, hcol, hb, hp⟩)
      · exact ⟨0, by simp, col, (h8 col).mp hcol, by simpa using hb, by simpa using hp⟩
      · exact ⟨k + 1, by simpa using hk, col, hcol, by simpa using hb,
          by rw [hp, Nat.add_assoc, Nat.add_comm 1 k]⟩
    · rintro ⟨k, hk, col, hcol, hb, hp⟩
      cases k with
      | zero => exact .inl ⟨col, (h8 col).mpr hcol, by simpa using hb, by simpa using hp⟩
      | succ k =>
        exact .inr ⟨k, by simpa using hk, col, hcol, by simpa using hb,
          by rw [hp, Nat.add_assoc, Nat.add_comm 1 k]⟩

theorem nodup_colPoints (px : Byte) (r : Fin 32) (b : Byte) :
    (colPoints px r b [0, 1, 2, 3, 4, 5, 6, 7]).Nodup := by
  have key : ∀ (cols : List Nat), cols.Nodup → (∀ col ∈ cols, col < 8) → (colPoints px r b cols).Nodup := by
    intro cols
    induction cols with
    | nil => intro _ _; exact List.nodup_nil
    | cons col cols ih =>
      intro hn hlt
      obtain ⟨hc, hn'⟩ := List.nodup_cons.mp hn
      have hrest := ih hn' fun q hq => hlt q (List.mem_cons_of_mem _ hq)
      rw [colPoints]
      split
      · refine List.nodup_cons.mpr ⟨?_, hrest⟩
        rw [mem_colPoints]
        rintro ⟨q, hq, -, he⟩
        have h1 := hlt q (List.mem_cons_of_mem _ hq)
        have h2 := hlt col List.mem_cons_self
        have h3 := congrArg (fun p : Fin 64 × Fin 32 => p.1.val) he
        simp only [columnOf, Fin.ofNat] at h3
        have : col = q := by omega
        exact hc (this ▸ hq)
      · exact hrest
  exact key _ (by decide) (by decide)

/-- Within one DRW no cell is toggled twice (R162). -/
theorem nodup_rowPoints (px py : Byte) (row : Nat) {bs : List Byte} (h : bs.length ≤ 32) :
    (rowPoints px py row bs).Nodup := by
  induction bs generalizing row with
  | nil => exact List.nodup_nil
  | cons b bs ih =>
    rw [rowPoints]
    simp only [List.length_cons] at h
    refine List.Nodup.append (nodup_colPoints px _ b) (ih (row + 1) (by omega)) ?_
    intro p hp hq
    rw [mem_colPoints] at hp
    rw [mem_rowPoints] at hq
    obtain ⟨_, -, -, rfl⟩ := hp
    obtain ⟨k, hk, _, -, -, he⟩ := hq
    have h3 := congrArg (fun p : Fin 64 × Fin 32 => p.2.val) he
    simp only [rowOf, Fin.ofNat] at h3
    omega

/-- A cell after drawing a sprite of at most 32 rows: toggled exactly if a set bit of the sprite lies on it. -/
theorem cell_drawRows (px py : Byte) {bs : List Byte} (h : bs.length ≤ 32) (d : Framebuffer × Bool) (c : Fin 64)
    (r : Fin 32) :
    Framebuffer.cell (drawRows px py 0 bs d).1 c r =
      (Framebuffer.cell d.1 c r ^^ decide ((c, r) ∈ rowPoints px py 0 bs)) := by
  rw [drawRows_eq_drawPoints, cell_drawPoints (nodup_rowPoints px py 0 h)]

/-- The collision of drawing a sprite of at most 32 rows: a set bit of the sprite lies on a cell that was lit. -/
theorem collision_drawRows (px py : Byte) {bs : List Byte} (h : bs.length ≤ 32) (d : Framebuffer × Bool) :
    (drawRows px py 0 bs d).2 = true ↔
      d.2 = true ∨ ∃ p ∈ rowPoints px py 0 bs, Framebuffer.cell d.1 p.1 p.2 = true := by
  rw [drawRows_eq_drawPoints, collision_drawPoints (nodup_rowPoints px py 0 h)]

@[simp] theorem drawSprite_byte (x y : Reg) (s : State) (bs : List Byte) (a : Nat) :
    (drawSprite x y s bs).byte a = s.byte a := rfl
@[simp] theorem drawSprite_mem (x y : Reg) (s : State) (bs : List Byte) : (drawSprite x y s bs).mem = s.mem := rfl
@[simp] theorem drawSprite_i (x y : Reg) (s : State) (bs : List Byte) : (drawSprite x y s bs).i = s.i := rfl
@[simp] theorem drawSprite_pc (x y : Reg) (s : State) (bs : List Byte) : (drawSprite x y s bs).pc = s.pc := rfl
@[simp] theorem drawSprite_sp (x y : Reg) (s : State) (bs : List Byte) : (drawSprite x y s bs).sp = s.sp := rfl
@[simp] theorem drawSprite_slot (x y : Reg) (s : State) (bs : List Byte) (k : Fin 16) :
    (drawSprite x y s bs).slot k = s.slot k := rfl
@[simp] theorem drawSprite_dt (x y : Reg) (s : State) (bs : List Byte) : (drawSprite x y s bs).dt = s.dt := rfl
@[simp] theorem drawSprite_st (x y : Reg) (s : State) (bs : List Byte) : (drawSprite x y s bs).st = s.st := rfl
@[simp] theorem drawSprite_keyDown (x y : Reg) (s : State) (bs : List Byte) (k : KeyId) :
    (drawSprite x y s bs).keyDown k = s.keyDown k := rfl
@[simp] theorem drawSprite_latch (x y : Reg) (s : State) (bs : List Byte) :
    (drawSprite x y s bs).latch = s.latch := rfl
@[simp] theorem drawSprite_fault (x y : Reg) (s : State) (bs : List Byte) :
    (drawSprite x y s bs).fault = s.fault := rfl
@[simp] theorem drawSprite_rndDraws (x y : Reg) (s : State) (bs : List Byte) :
    (drawSprite x y s bs).rndDraws = s.rndDraws := rfl

/-- VF after a draw is the collision, the other registers are unchanged (R162). -/
theorem reg_drawSprite (x y : Reg) (s : State) (bs : List Byte) (q : Reg) :
    (drawSprite x y s bs).reg q =
      if q = regF then flagByte (drawRows (s.reg x) (s.reg y) 0 bs (s.fb, false)).2 else s.reg q := by
  rw [drawSprite, State.reg_setReg]
  rfl

end Sys2Proof.Machine
end

