-- ==== Sys2Proof/Laws/Memory.lean ====
section
/-! SUPPORT. The laws of memory: reading after storing, and that every memory operation keeps the canonical form. -/

namespace Sys2Proof.Machine

/-! ## Reading after one store -/

/-- Below its first address a memory in canonical form lists nothing. -/
theorem Memory.byteAt_of_lt {m : Memory} {lo a : Nat} (h : Memory.wfFrom lo m = true) (ha : a < lo) :
    Memory.byteAt m a = Memory.unlisted a := by
  induction m generalizing lo with
  | nil => rfl
  | cons e rest ih =>
    obtain ⟨a', b'⟩ := e
    simp only [Memory.wfFrom, Bool.and_eq_true, decide_eq_true_eq] at h
    obtain ⟨⟨⟨hlo, -⟩, -⟩, hrest⟩ := h
    rw [Memory.byteAt, if_neg (by omega)]
    exact ih hrest (by omega)

/-- Reading after `put`, in a memory in canonical form. -/
theorem Memory.byteAt_put {m : Memory} {lo a : Nat} (b : Byte) (q : Nat) (h : Memory.wfFrom lo m = true) :
    Memory.byteAt (Memory.put m a b) q = if q = a then b else Memory.byteAt m q := by
  induction m generalizing lo with
  | nil => by_cases hb : b = Memory.unlisted a <;> by_cases hq : q = a <;> simp_all [Memory.put, Memory.byteAt]
  | cons e rest ih =>
    obtain ⟨a', b'⟩ := e
    simp only [Memory.wfFrom, Bool.and_eq_true, decide_eq_true_eq] at h
    obtain ⟨⟨⟨hlo, hlt⟩, hne⟩, hrest⟩ := h
    rw [Memory.put]
    by_cases hlt' : a < a'
    · have hu : Memory.byteAt ((a', b') :: rest) a = Memory.unlisted a := by
        rw [Memory.byteAt, if_neg (by omega)]
        exact Memory.byteAt_of_lt hrest (by omega)
      rw [if_pos hlt']
      by_cases hb : b = Memory.unlisted a
      · rw [if_pos hb]
        by_cases hq : q = a
        · rw [if_pos hq, hq, hu, hb]
        · rw [if_neg hq]
      · rw [if_neg hb, Memory.byteAt]
    · rw [if_neg hlt']
      by_cases heq : a = a'
      · subst heq
        rw [if_pos rfl]
        have hu : Memory.byteAt rest a = Memory.unlisted a := Memory.byteAt_of_lt hrest (by omega)
        by_cases hb : b = Memory.unlisted a
        · rw [if_pos hb]
          by_cases hq : q = a
          · rw [if_pos hq, hq, hu, hb]
          · rw [if_neg hq, Memory.byteAt, if_neg hq]
        · rw [if_neg hb, Memory.byteAt, Memory.byteAt]
          by_cases hq : q = a <;> simp [hq]
      · rw [if_neg heq, Memory.byteAt, Memory.byteAt, ih hrest]
        by_cases hq : q = a'
        · rw [if_pos hq, if_pos hq, if_neg (by omega)]
        · rw [if_neg hq, if_neg hq]

/-- Reading another address after `put`, in any memory. -/
theorem Memory.byteAt_put_other (m : Memory) {a q : Nat} (b : Byte) (hq : q ≠ a) :
    Memory.byteAt (Memory.put m a b) q = Memory.byteAt m q := by
  induction m with
  | nil => rw [Memory.put]; split <;> simp [Memory.byteAt, hq]
  | cons e rest ih =>
    obtain ⟨a', b'⟩ := e
    rw [Memory.put]
    split
    · split <;> simp [Memory.byteAt, hq]
    · split
      · rename_i h
        subst h
        split <;> simp [Memory.byteAt, hq]
      · simp [Memory.byteAt, ih]

/-- `put` keeps the canonical form. -/
theorem Memory.wfFrom_put {m : Memory} {lo a : Nat} (b : Byte) (h : Memory.wfFrom lo m = true) (hlo : lo ≤ a)
    (ha : a < Config.memSize) : Memory.wfFrom lo (Memory.put m a b) = true := by
  induction m generalizing lo with
  | nil => by_cases hb : b = Memory.unlisted a <;> simp_all [Memory.put, Memory.wfFrom]
  | cons e rest ih =>
    obtain ⟨a', b'⟩ := e
    simp only [Memory.wfFrom, Bool.and_eq_true, decide_eq_true_eq] at h
    obtain ⟨⟨⟨hlo', hlt⟩, hne⟩, hrest⟩ := h
    have weaken : ∀ {lo lo' : Nat} {m : Memory}, lo ≤ lo' → Memory.wfFrom lo' m = true →
        Memory.wfFrom lo m = true := by
      intro lo lo' m hle hm
      cases m with
      | nil => rfl
      | cons e r =>
        simp only [Memory.wfFrom, Bool.and_eq_true, decide_eq_true_eq] at hm ⊢
        exact ⟨⟨⟨by omega, hm.1.1.2⟩, hm.1.2⟩, hm.2⟩
    rw [Memory.put]
    by_cases hlt' : a < a'
    · rw [if_pos hlt']
      by_cases hb : b = Memory.unlisted a
      · simp only [if_pos hb, Memory.wfFrom, Bool.and_eq_true, decide_eq_true_eq]
        exact ⟨⟨⟨hlo', hlt⟩, hne⟩, hrest⟩
      · simp only [if_neg hb, Memory.wfFrom, Bool.and_eq_true, decide_eq_true_eq]
        exact ⟨⟨⟨hlo, ha⟩, hb⟩, ⟨⟨by omega, hlt⟩, hne⟩, hrest⟩
    · rw [if_neg hlt']
      by_cases heq : a = a'
      · rw [if_pos heq]
        by_cases hb : b = Memory.unlisted a
        · rw [if_pos hb]
          exact weaken (by omega) hrest
        · simp only [if_neg hb, Memory.wfFrom, Bool.and_eq_true, decide_eq_true_eq]
          exact ⟨⟨⟨hlo, ha⟩, hb⟩, heq ▸ hrest⟩
      · simp only [if_neg heq, Memory.wfFrom, Bool.and_eq_true, decide_eq_true_eq]
        exact ⟨⟨⟨hlo', hlt⟩, hne⟩, ih hrest (by omega)⟩

/-- A store keeps the canonical form. -/
theorem Memory.wf_store {m : Memory} (h : Memory.wf m = true) (a : Nat) (b : Byte) :
    Memory.wf (Memory.store m a b) = true := by
  unfold Memory.store
  split
  · exact Memory.wfFrom_put b h (Nat.zero_le a) ‹_›
  · exact h

/-- Reading after a store: the byte stored at its address, every other byte unchanged (R53, R61). -/
theorem Memory.byteAt_store {m : Memory} (h : Memory.wf m = true) {a : Nat} (ha : a < Config.memSize) (b : Byte)
    (q : Nat) : Memory.byteAt (Memory.store m a b) q = if q = a then b else Memory.byteAt m q := by
  rw [Memory.store, if_pos ha, Memory.byteAt_put b q h]

/-- Reading another address after a store, in any memory (R53: "It changes no other byte"). -/
theorem Memory.byteAt_store_other (m : Memory) {a q : Nat} (b : Byte) (hq : q ≠ a) :
    Memory.byteAt (Memory.store m a b) q = Memory.byteAt m q := by
  unfold Memory.store
  split
  · exact Memory.byteAt_put_other m b hq
  · rfl

/-! ## Ranges -/

@[simp] theorem Memory.length_bytesFrom (m : Memory) (a n : Nat) : (Memory.bytesFrom m a n).length = n := by
  induction n generalizing a with
  | zero => rfl
  | succ n ih => simp [Memory.bytesFrom, ih]

/-- The k-th byte of a range read. -/
theorem Memory.getElem_bytesFrom (m : Memory) (a n k : Nat) (h : k < (Memory.bytesFrom m a n).length) :
    (Memory.bytesFrom m a n)[k] = Memory.byteAt m (a + k) := by
  induction n generalizing a k with
  | zero => simp at h
  | succ n ih =>
    cases k with
    | zero => rfl
    | succ k =>
      simp only [Memory.bytesFrom, List.getElem_cons_succ]
      rw [ih, Nat.add_assoc, Nat.add_comm 1 k]

/-- The k-th byte of a range read, or a default past its end. -/
theorem Memory.getD_bytesFrom (m : Memory) (a n k : Nat) (b : Byte) :
    (Memory.bytesFrom m a n).getD k b = if k < n then Memory.byteAt m (a + k) else b := by
  by_cases h : k < n
  · rw [List.getD_eq_getElem _ _ (by simpa using h), Memory.getElem_bytesFrom, if_pos h]
  · rw [List.getD_eq_default _ _ (by simpa using h), if_neg h]

/-- Storing a range keeps the canonical form. -/
theorem Memory.wf_storeFrom {m : Memory} (h : Memory.wf m = true) (a : Nat) (bs : List Byte) :
    Memory.wf (Memory.storeFrom m a bs) = true := by
  induction bs generalizing m a with
  | nil => exact h
  | cons b bs ih => exact ih (Memory.wf_store h a b) (a + 1)

/-- Reading outside a stored range, in any memory: unchanged. -/
theorem Memory.byteAt_storeFrom_outside (m : Memory) {a : Nat} {bs : List Byte} {q : Nat}
    (hq : q < a ∨ a + bs.length ≤ q) : Memory.byteAt (Memory.storeFrom m a bs) q = Memory.byteAt m q := by
  induction bs generalizing m a with
  | nil => rfl
  | cons b bs ih =>
    simp only [List.length_cons] at hq
    rw [Memory.storeFrom, ih (Memory.store m a b) (by omega), Memory.byteAt_store_other m b (by omega)]

/-- Reading inside a stored range: the byte stored there. -/
theorem Memory.byteAt_storeFrom_inside {m : Memory} (h : Memory.wf m = true) {a : Nat} {bs : List Byte}
    (hr : a + bs.length ≤ Config.memSize) {k : Nat} (hk : k < bs.length) :
    Memory.byteAt (Memory.storeFrom m a bs) (a + k) = bs[k] := by
  induction bs generalizing m a k with
  | nil => simp at hk
  | cons b bs ih =>
    simp only [List.length_cons] at hr hk
    rw [Memory.storeFrom]
    cases k with
    | zero =>
      rw [Memory.byteAt_storeFrom_outside _ (by omega), Memory.byteAt_store h (by omega)]
      simp
    | succ k =>
      have := ih (Memory.wf_store h a b) (a := a + 1) (k := k) (by omega) (by omega)
      rw [show a + 1 + k = a + (k + 1) by omega] at this
      simpa using this

/-! ## Equal memories are equal data -/

/-- Two memories in canonical form that read the same at every address are the same list. -/
theorem Memory.ext_byteAt_from {m m' : Memory} {lo : Nat} (h : Memory.wfFrom lo m = true)
    (h' : Memory.wfFrom lo m' = true) (he : ∀ a, Memory.byteAt m a = Memory.byteAt m' a) : m = m' := by
  induction m generalizing m' lo with
  | nil =>
    cases m' with
    | nil => rfl
    | cons e r =>
      obtain ⟨a, b⟩ := e
      simp only [Memory.wfFrom, Bool.and_eq_true, decide_eq_true_eq] at h'
      have := he a
      simp only [Memory.byteAt, if_true] at this
      exact absurd this.symm h'.1.2
  | cons e r ih =>
    obtain ⟨a, b⟩ := e
    simp only [Memory.wfFrom, Bool.and_eq_true, decide_eq_true_eq] at h
    cases m' with
    | nil =>
      have := he a
      simp only [Memory.byteAt, if_true] at this
      exact absurd this h.1.2
    | cons e' r' =>
      obtain ⟨a', b'⟩ := e'
      simp only [Memory.wfFrom, Bool.and_eq_true, decide_eq_true_eq] at h'
      have haa : a = a' := by
        rcases Nat.lt_trichotomy a a' with hlt | heq | hgt
        · have := he a
          rw [Memory.byteAt, if_pos rfl, Memory.byteAt, if_neg (by omega),
            Memory.byteAt_of_lt h'.2 (by omega)] at this
          exact absurd this h.1.2
        · exact heq
        · have := he a'
          rw [Memory.byteAt, if_neg (by omega), Memory.byteAt_of_lt h.2 (by omega), Memory.byteAt,
            if_pos rfl] at this
          exact absurd this.symm h'.1.2
      subst haa
      have hb : b = b' := by simpa [Memory.byteAt] using he a
      subst hb
      refine congrArg _ (ih h.2 h'.2 fun q => ?_)
      by_cases hq : q = a
      · subst hq
        rw [Memory.byteAt_of_lt h.2 (by omega), Memory.byteAt_of_lt h'.2 (by omega)]
      · simpa [Memory.byteAt, hq] using he q

/-- Equal memories are equal data. -/
theorem Memory.ext_byteAt {m m' : Memory} (h : Memory.wf m = true) (h' : Memory.wf m' = true)
    (he : ∀ a, Memory.byteAt m a = Memory.byteAt m' a) : m = m' :=
  Memory.ext_byteAt_from h h' he

/-- Reset memory is in its canonical form. -/
@[simp] theorem Memory.wf_reset : Memory.wf State.reset.mem = true := rfl

/-! ## The checked primitives -/

/-- What `MemRead(addr, 2)` answers (R54). -/
theorem memRead16_of_lt {m : Memory} {addr : Nat} (h : addr + 1 < Config.memSize) :
    memRead16 m addr = .ok (wordOfBytes (Memory.byteAt m addr) (Memory.byteAt m (addr + 1))) := by
  rw [memRead16, if_neg (by omega)]

/-- When `MemRead(addr, 2)` raises (R54). -/
theorem memRead16_of_ge {m : Memory} {addr : Nat} (h : Config.memSize ≤ addr + 1) :
    memRead16 m addr = .error .outOfBounds := by
  rw [memRead16, if_pos h]

/-- The range check of R58 and R162 as a bound. -/
theorem rangeFaults_eq_false {a n : Nat} : rangeFaults a n = false ↔ n = 0 ∨ a + n ≤ Config.memSize := by
  simp only [rangeFaults, decide_eq_false_iff_not]
  omega

/-- The range check of R58 and R162 as a bound, when it raises. -/
theorem rangeFaults_eq_true {a n : Nat} : rangeFaults a n = true ↔ 1 ≤ n ∧ Config.memSize < a + n := by
  simp only [rangeFaults, decide_eq_true_eq]
  omega

/-- All a checked range read can do. -/
theorem memReadRange_cases (m : Memory) (a n : Nat) :
    ((n = 0 ∨ a + n ≤ Config.memSize) ∧ memReadRange m a n = .ok (Memory.bytesFrom m a n)) ∨
      ((1 ≤ n ∧ Config.memSize < a + n) ∧ memReadRange m a n = .error .outOfBounds) := by
  cases h : rangeFaults a n
  · exact .inl ⟨rangeFaults_eq_false.mp h, by simp [memReadRange, h]⟩
  · exact .inr ⟨rangeFaults_eq_true.mp h, by simp [memReadRange, h]⟩

/-- All a checked range write can do. -/
theorem memWriteRange_cases (a : Nat) (bs : List Byte) (s : State) :
    ((bs.length = 0 ∨ a + bs.length ≤ Config.memSize) ∧
        memWriteRange a bs s = .ok { s with mem := Memory.storeFrom s.mem a bs }) ∨
      ((1 ≤ bs.length ∧ Config.memSize < a + bs.length) ∧ memWriteRange a bs s = .error .outOfBounds) := by
  cases h : rangeFaults a bs.length
  · exact .inl ⟨rangeFaults_eq_false.mp h, by simp [memWriteRange, h]⟩
  · exact .inr ⟨rangeFaults_eq_true.mp h, by simp [memWriteRange, h]⟩

end Sys2Proof.Machine
end

