-- ==== Sys2Proof/Laws/Ops.lean ====
section
/-! SUPPORT. One lemma for each shared operation that says once everything it can do. -/

namespace Sys2Proof.Machine

open Host (Outcome)

/-- Everything `commit` can do. -/
theorem commit_cases (r : Except Fault State) (s : State) :
    (∃ t, r = .ok t ∧ commit r s = .next t) ∨
      (∃ f, r = .error f ∧ commit r s = .next { s with fault := some f }) := by
  cases r with
  | ok t => exact .inl ⟨t, rfl, rfl⟩
  | error f => exact .inr ⟨f, rfl, rfl⟩

@[simp] theorem commit_ok (t s : State) : commit (.ok t) s = .next t := rfl

@[simp] theorem commit_error (f : Fault) (s : State) : commit (.error f) s = .next { s with fault := some f } := rfl

/-- A push with room (R26). -/
theorem stackPush_of_lt (w : Word16) {s : State} (h : s.sp.val < Config.stackDepth) :
    stackPush w s =
      .ok { s with stk := s.stk.set s.sp.val w h, sp := ⟨s.sp.val + 1, Nat.succ_lt_succ h⟩ } := by
  rw [stackPush, dif_pos h]

/-- A push on a full stack (R26, R202). -/
theorem stackPush_full (w : Word16) {s : State} (h : s.sp.val = Config.stackDepth) :
    stackPush w s = .error .stackOverflow := by
  rw [stackPush, dif_neg (by omega)]

/-- A pop with an address held (R26). -/
theorem stackPopToPc_of_pos {s : State} (h : 0 < s.sp.val) :
    stackPopToPc s =
      .ok { s with sp := ⟨s.sp.val - 1, by omega⟩, pc := s.stk.get ⟨s.sp.val - 1, by omega⟩ } := by
  rw [stackPopToPc, dif_pos h]

/-- A pop of an empty stack (R26, R203). -/
theorem stackPopToPc_empty {s : State} (h : s.sp.val = 0) : stackPopToPc s = .error .stackUnderflow := by
  rw [stackPopToPc, dif_neg (by omega)]

/-- A stack slot after a push into a slot. -/
theorem get_set_slot (v : Vector Word16 16) (n : Nat) (h : n < 16) (w : Word16) (k : Fin 16) :
    (v.set n w h).get k = if k.val = n then w else v.get k := by
  simp only [Vector.get_eq_getElem, Vector.getElem_set, eq_comm]

/-- A register after the flag and the result were written (R141): the result in Vx, the flag in VF unless x = F. -/
theorem reg_flagThenResult (x : Reg) (c : Bool) (b : Byte) (s : State) (q : Reg) :
    (flagThenResult x c b s).reg q = if q = x then b else if q = regF then flagByte c else s.reg q := by
  simp [flagThenResult, State.reg_setReg]

/-- The flag is always 0x00 or 0x01 (R22). -/
theorem flagByte_cases (c : Bool) : (c = true ∧ flagByte c = 1) ∨ (c = false ∧ flagByte c = 0) := by
  cases c <;> simp [flagByte]

/-- All of `UnchangedOutside`, part by part. -/
theorem unchangedOutside_iff {writes : Part → Prop} {s t : State} :
    UnchangedOutside writes s t ↔ ∀ p, writes p ∨ p.same s t := by
  simp only [UnchangedOutside, or_iff_not_imp_left]

/-- What a faulting instruction may write (R206, R207). -/
theorem mayWrite_of_fault {i : Instr} {s : State} {f : Fault} (h : faultIn i s = some f) (p : Part) :
    mayWrite i s p ↔ p = .fault := by
  simp only [mayWrite, h]

/-- What an instruction that does not fault may write. -/
theorem mayWrite_of_none {i : Instr} {s : State} (h : faultIn i s = none) (p : Part) :
    mayWrite i s p ↔ writesOf i s p := by
  simp only [mayWrite, h]

/-- The parts are the whole state: two states with canonical memories and the same value in every part are equal. -/
theorem State.eq_of_same {s t : State} (hs : Memory.wf s.mem = true) (ht : Memory.wf t.mem = true)
    (h : UnchangedOutside (fun _ => False) s t) : t = s := by
  have h' : ∀ p : Part, p.same s t := fun p => h p id
  have hv : t.v = s.v := Vector.ext fun k hk => by
    simpa [Part.same, State.reg, Vector.get_eq_getElem] using h' (.reg ⟨k, hk⟩)
  have hstk : t.stk = s.stk := Vector.ext fun k hk => by
    simpa [Part.same, State.slot, Vector.get_eq_getElem] using h' (.slot ⟨k, hk⟩)
  have hkey : t.key = s.key := Vector.ext fun k hk => by
    simpa [Part.same, State.keyDown, Vector.get_eq_getElem] using h' (.key ⟨k, hk⟩)
  have hfb : t.fb = s.fb := Framebuffer.ext_cell fun c r => h' (.cell c r)
  have hmem : t.mem = s.mem := Memory.ext_byteAt ht hs fun a => h' (.byte a)
  have hi : t.i = s.i := h' .index
  have hpc : t.pc = s.pc := h' .pc
  have hsp : t.sp = s.sp := h' .sp
  have hdt : t.dt = s.dt := h' .dt
  have hst : t.st = s.st := h' .st
  have hl : t.latch = s.latch := h' .latch
  have hf : t.fault = s.fault := h' .fault
  have hd : t.rndDraws = s.rndDraws := h' .draws
  cases s
  cases t
  simp_all

end Sys2Proof.Machine
end

