-- ==== Sys2Proof/Laws/PerInstr.lean ====
section
/-! SUPPORT. Statements made instruction by instruction. Family `TableRow`: the word of an instruction matches its row
of the opcode table, `(op & mask) = match` (rule R84). -/

namespace Sys2Proof.Laws

/-- Masking two concatenations part by part, the upper part whole. -/
theorem append_and_keepHigh {n m : Nat} (f : BitVec n) (w k : BitVec m) :
    (f ++ w) &&& (BitVec.allOnes n ++ k) = f ++ (w &&& k) := by
  rw [BitVec.and_append, BitVec.and_allOnes]

/-- Masking two concatenations part by part, the upper part away. -/
theorem append_and_dropHigh {n m : Nat} (f : BitVec n) (w k : BitVec m) :
    (f ++ w) &&& (0#n ++ k) = 0#n ++ (w &&& k) := by
  rw [BitVec.and_append, BitVec.and_zero]

/-- A word of format A keeps its family nibble under the mask 0xF000. -/
theorem formatA_and (f : BitVec 4) (w : BitVec 12) : formatA f w &&& 0xF000 = f ++ 0#12 :=
  (append_and_keepHigh f w 0#12).trans (by rw [BitVec.and_zero])

/-- A word of format K or X under the mask 0xF000. -/
theorem formatK_and (f : BitVec 4) (x : Reg) (k : Byte) : formatK f x k &&& 0xF000 = f ++ 0#12 :=
  formatA_and f _

/-- A word of format X under the mask 0xF0FF. -/
theorem formatX_and (f : BitVec 4) (x : Reg) (k : Byte) : formatK f x k &&& 0xF0FF = f ++ (0#4 ++ k) :=
  (append_and_keepHigh f (BitVec.ofNat 4 x.val ++ k) (0#4 ++ 0xFF#8)).trans
    (congrArg (f ++ ·) ((append_and_dropHigh _ k 0xFF#8).trans (congrArg (0#4 ++ ·) BitVec.and_allOnes)))

/-- A word of format D under the mask 0xF000. -/
theorem formatD_and (f : BitVec 4) (x y : Reg) (n : BitVec 4) : formatR f x y n &&& 0xF000 = f ++ 0#12 :=
  formatA_and f _

/-- A word of format R under the mask 0xF00F. -/
theorem formatR_and (f : BitVec 4) (x y : Reg) (n : BitVec 4) :
    formatR f x y n &&& 0xF00F = f ++ (0#4 ++ (0#4 ++ n)) :=
  (append_and_keepHigh f (BitVec.ofNat 4 x.val ++ (BitVec.ofNat 4 y.val ++ n)) (0#4 ++ (0#4 ++ 0xF#4))).trans
    (congrArg (f ++ ·) ((append_and_dropHigh _ (BitVec.ofNat 4 y.val ++ n) (0#4 ++ 0xF#4)).trans
      (congrArg (0#4 ++ ·) ((append_and_dropHigh _ n 0xF#4).trans (congrArg (0#4 ++ ·) BitVec.and_allOnes)))))

namespace TableRow

/-- The word of the instruction matches its row of the opcode table. -/
def Statement (i : Instr) : Prop := encode i &&& i.mask = i.matchBits

theorem cls : Statement .cls := rfl
theorem ret : Statement .ret := rfl
theorem jp (nnn : BitVec 12) : Statement (.jp nnn) := formatA_and _ _
theorem call (nnn : BitVec 12) : Statement (.call nnn) := formatA_and _ _
theorem seImm (x : Reg) (kk : Byte) : Statement (.seImm x kk) := formatK_and _ _ _
theorem sneImm (x : Reg) (kk : Byte) : Statement (.sneImm x kk) := formatK_and _ _ _
theorem seReg (x y : Reg) : Statement (.seReg x y) := formatR_and _ _ _ _
theorem ldImm (x : Reg) (kk : Byte) : Statement (.ldImm x kk) := formatK_and _ _ _
theorem addImm (x : Reg) (kk : Byte) : Statement (.addImm x kk) := formatK_and _ _ _
theorem ldReg (x y : Reg) : Statement (.ldReg x y) := formatR_and _ _ _ _
theorem orReg (x y : Reg) : Statement (.orReg x y) := formatR_and _ _ _ _
theorem andReg (x y : Reg) : Statement (.andReg x y) := formatR_and _ _ _ _
theorem xorReg (x y : Reg) : Statement (.xorReg x y) := formatR_and _ _ _ _
theorem addReg (x y : Reg) : Statement (.addReg x y) := formatR_and _ _ _ _
theorem sub (x y : Reg) : Statement (.sub x y) := formatR_and _ _ _ _
theorem shr (x y : Reg) : Statement (.shr x y) := formatR_and _ _ _ _
theorem subn (x y : Reg) : Statement (.subn x y) := formatR_and _ _ _ _
theorem shl (x y : Reg) : Statement (.shl x y) := formatR_and _ _ _ _
theorem sneReg (x y : Reg) : Statement (.sneReg x y) := formatR_and _ _ _ _
theorem ldI (nnn : BitVec 12) : Statement (.ldI nnn) := formatA_and _ _
theorem jpV0 (nnn : BitVec 12) : Statement (.jpV0 nnn) := formatA_and _ _
theorem rnd (x : Reg) (kk : Byte) : Statement (.rnd x kk) := formatK_and _ _ _
theorem drw (x y : Reg) (n : Fin 16) : Statement (.drw x y n) := formatD_and _ _ _ _
theorem skp (x : Reg) : Statement (.skp x) := formatX_and _ _ _
theorem sknp (x : Reg) : Statement (.sknp x) := formatX_and _ _ _
theorem ldVxDt (x : Reg) : Statement (.ldVxDt x) := formatX_and _ _ _
theorem ldVxK (x : Reg) : Statement (.ldVxK x) := formatX_and _ _ _
theorem ldDtVx (x : Reg) : Statement (.ldDtVx x) := formatX_and _ _ _
theorem ldStVx (x : Reg) : Statement (.ldStVx x) := formatX_and _ _ _
theorem addIVx (x : Reg) : Statement (.addIVx x) := formatX_and _ _ _
theorem ldFVx (x : Reg) : Statement (.ldFVx x) := formatX_and _ _ _
theorem ldBVx (x : Reg) : Statement (.ldBVx x) := formatX_and _ _ _
theorem ldMemVx (x : Reg) : Statement (.ldMemVx x) := formatX_and _ _ _
theorem ldVxMem (x : Reg) : Statement (.ldVxMem x) := formatX_and _ _ _
theorem nopClass0 (w : BitVec 12) : Statement (.nopClass0 w) := formatA_and _ _
theorem nopClass5 (w : BitVec 12) : Statement (.nopClass5 w) := formatA_and _ _
theorem nopClass8 (w : BitVec 12) : Statement (.nopClass8 w) := formatA_and _ _
theorem nopClass9 (w : BitVec 12) : Statement (.nopClass9 w) := formatA_and _ _
theorem nopClassE (w : BitVec 12) : Statement (.nopClassE w) := formatA_and _ _
theorem nopClassF (w : BitVec 12) : Statement (.nopClassF w) := formatA_and _ _

end TableRow

end Sys2Proof.Laws
end

