-- ==== Sys2Proof/Tests/Slice0.lean ====
section
/-! SUPPORT. The model's own tests. Expected results come from the vectors of spec/95_test_vectors.md (named T-…), from words
written out from the rows of R84, or from hand calculation by the rule named. At the end, for every statement with
hypotheses, a concrete state and operands that meet them. -/

namespace Sys2Proof.Tests

open Sys2Proof Sys2Proof.Machine
open Host (Outcome)

/-! ## Helpers -/

/-- The state after a STEP that answers a next state. -/
def stepped (s : State) : Option State :=
  match step s with
  | .next t => some t
  | .fault _ => none
  | .refused _ => none

/-- The start state of the vectors: the word at 0x0200 and PC there. -/
def launch (word : Nat) (s : State) : State := ({ s with pc := 0x200 }).withFetchWord 16 word

/-- What one STEP of the word leaves, seen through `f`. -/
def after {α : Type} (word : Nat) (s : State) (f : State → α) : Option α := (stepped (launch word s)).map f

/-- The reset state with some registers set. -/
def regs (l : List (Reg × Byte)) : State := l.foldl (fun s p => s.setReg p.1 p.2) State.reset

/-- A state with I and some bytes of memory set. -/
def atI (i : Word16) (bytes : List Byte) (s : State) : State :=
  { s with i := i, mem := Memory.storeFrom s.mem i.toNat bytes }

/-! ## Well-formedness: an ill-formed term for each check, refused (R86) -/

theorem test_wf_nop0_refuses_cls_and_ret :
    (Instr.nopClass0 0x0E0).wellFormed = false ∧ (Instr.nopClass0 0x0EE).wellFormed = false := by decide
theorem test_wf_nop5_refuses_se : (Instr.nopClass5 0x120).wellFormed = false := by decide
theorem test_wf_nop8_refuses_alu :
    (Instr.nopClass8 0xAB0).wellFormed = false ∧ (Instr.nopClass8 0xAB7).wellFormed = false ∧
      (Instr.nopClass8 0xABE).wellFormed = false := by decide
theorem test_wf_nop9_refuses_sne : (Instr.nopClass9 0xAB0).wellFormed = false := by decide
theorem test_wf_nopE_refuses_skips :
    (Instr.nopClassE 0x19E).wellFormed = false ∧ (Instr.nopClassE 0x1A1).wellFormed = false := by decide
theorem test_wf_nopF_refuses_misc :
    (Instr.nopClassF 0x107).wellFormed = false ∧ (Instr.nopClassF 0x165).wellFormed = false := by decide
theorem test_wf_accepts :
    (Instr.nopClass0 0x0E1).wellFormed = true ∧ (Instr.nopClass8 0xAB8).wellFormed = true ∧
      (Instr.drw 15 15 15).wellFormed = true := by decide

/-! ## Decoding: one word per constructor, written out from the rows of R84 and R86 -/

theorem test_decode_cls : decodeWord 0x00E0 = .cls := by decide
theorem test_decode_ret : decodeWord 0x00EE = .ret := by decide
theorem test_decode_jp : decodeWord 0x1ABC = .jp 0xABC := by decide
theorem test_decode_call : decodeWord 0x2FFE = .call 0xFFE := by decide
theorem test_decode_seImm : decodeWord 0x332A = .seImm 3 0x2A := by decide
theorem test_decode_sneImm : decodeWord 0x432A = .sneImm 3 0x2A := by decide
theorem test_decode_seReg : decodeWord 0x5120 = .seReg 1 2 := by decide
theorem test_decode_ldImm : decodeWord 0x6A05 = .ldImm 10 0x05 := by decide
theorem test_decode_addImm : decodeWord 0x7103 = .addImm 1 0x03 := by decide
theorem test_decode_ldReg : decodeWord 0x8120 = .ldReg 1 2 := by decide
theorem test_decode_orReg : decodeWord 0x8121 = .orReg 1 2 := by decide
theorem test_decode_andReg : decodeWord 0x8122 = .andReg 1 2 := by decide
theorem test_decode_xorReg : decodeWord 0x8123 = .xorReg 1 2 := by decide
theorem test_decode_addReg : decodeWord 0x8AB4 = .addReg 10 11 := by decide
theorem test_decode_sub : decodeWord 0x8125 = .sub 1 2 := by decide
theorem test_decode_shr : decodeWord 0x81F6 = .shr 1 15 := by decide
theorem test_decode_subn : decodeWord 0x8127 = .subn 1 2 := by decide
theorem test_decode_shl : decodeWord 0x8F0E = .shl 15 0 := by decide
theorem test_decode_sneReg : decodeWord 0x9120 = .sneReg 1 2 := by decide
theorem test_decode_ldI : decodeWord 0xA123 = .ldI 0x123 := by decide
theorem test_decode_jpV0 : decodeWord 0xBFFF = .jpV0 0xFFF := by decide
theorem test_decode_rnd : decodeWord 0xC10F = .rnd 1 0x0F := by decide
theorem test_decode_drw : decodeWord 0xD015 = .drw 0 1 5 := by decide
theorem test_decode_skp : decodeWord 0xE59E = .skp 5 := by decide
theorem test_decode_sknp : decodeWord 0xE5A1 = .sknp 5 := by decide
theorem test_decode_ldVxDt : decodeWord 0xF507 = .ldVxDt 5 := by decide
theorem test_decode_ldVxK : decodeWord 0xF30A = .ldVxK 3 := by decide
theorem test_decode_ldDtVx : decodeWord 0xF215 = .ldDtVx 2 := by decide
theorem test_decode_ldStVx : decodeWord 0xF218 = .ldStVx 2 := by decide
theorem test_decode_addIVx : decodeWord 0xF21E = .addIVx 2 := by decide
theorem test_decode_ldFVx : decodeWord 0xF329 = .ldFVx 3 := by decide
theorem test_decode_ldBVx : decodeWord 0xF433 = .ldBVx 4 := by decide
theorem test_decode_ldMemVx : decodeWord 0xF255 = .ldMemVx 2 := by decide
theorem test_decode_ldVxMem : decodeWord 0xF265 = .ldVxMem 2 := by decide
/-- T-ENC-11, T-ENC-12, T-ENC-13. -/
theorem test_decode_nopClass0 :
    decodeWord 0x0000 = .nopClass0 0x000 ∧ decodeWord 0x00E1 = .nopClass0 0x0E1 ∧
      decodeWord 0x01E0 = .nopClass0 0x1E0 ∧ decodeWord 0x0EE0 = .nopClass0 0xEE0 := by decide
/-- T-ENC-14. -/
theorem test_decode_nopClass5 :
    decodeWord 0x5121 = .nopClass5 0x121 ∧ decodeWord 0x512F = .nopClass5 0x12F := by decide
/-- T-ENC-15. -/
theorem test_decode_nopClass8 :
    decodeWord 0x8AB8 = .nopClass8 0xAB8 ∧ decodeWord 0x8ABD = .nopClass8 0xABD ∧
      decodeWord 0x8ABF = .nopClass8 0xABF := by decide
/-- T-ENC-16. -/
theorem test_decode_nopClass9 : decodeWord 0x9AB3 = .nopClass9 0xAB3 := by decide
/-- T-ENC-17. -/
theorem test_decode_nopClassE :
    decodeWord 0xE000 = .nopClassE 0x000 ∧ decodeWord 0xE19F = .nopClassE 0x19F ∧
      decodeWord 0xE1A0 = .nopClassE 0x1A0 ∧ decodeWord 0xE09D = .nopClassE 0x09D := by decide
/-- T-ENC-18. -/
theorem test_decode_nopClassF :
    decodeWord 0xF000 = .nopClassF 0x000 ∧ decodeWord 0xF108 = .nopClassF 0x108 ∧
      decodeWord 0xF085 = .nopClassF 0x085 ∧ decodeWord 0xF030 = .nopClassF 0x030 := by decide
/-- The high byte comes first (R55), and the bytes after the word are left. -/
theorem test_decode_bytes : decode [0x6A, 0x05, 0x12] = .ok (.ldImm 10 0x05, [0x12]) := by rfl
theorem test_decode_truncated : decode [0x6A] = .error .truncated := by rfl
theorem test_decodeTableWord : decodeTableWord 16 0xD015 = some (.drw 0 1 5) := by decide
theorem test_encode : encode (.drw 0 1 5) = 0xD015 ∧ encodeBytes (.ldI 0x123) = [0xA1, 0x23] := by decide

/-! ## Memory primitives (T-MEM-02, T-MEM-05, T-MEM-06, T-MEM-08) -/

theorem test_mem_read16 : (memRead16 (Memory.storeFrom [] 0xFFE [0x12, 0x34]) 0xFFE).toOption = some 0x1234 := by decide
theorem test_mem_read16_bound : (memRead16 [] 0xFFF).toOption = none ∧ (memRead8 [] 0xFFF).toOption = some 0 := by decide
theorem test_mem_font : (memRead8 State.reset.mem 0).toOption = some 0xF0 ∧ (memRead8 State.reset.mem 0x4F).toOption = some 0x80 := by
  decide
/-- Writing the reset contents back removes the entry: equal memories are equal data. -/
theorem test_mem_canonical : Memory.store (Memory.store [] 0x300 5) 0x300 0 = [] ∧ Memory.store [] 0 0xF0 = [] := by decide
theorem test_reset_font : State.resetWith defaultFont = State.reset := by decide

/-! ## The no-op class (T-NOP-01, T-NOP-05, T-NOP-06, T-NOP-08, T-NOP-09, T-NOP-11) -/

theorem test_nopClass0 : stepped (launch 0x0000 (regs [(0, 0x11), (15, 0x55)])) =
    some { launch 0x0000 (regs [(0, 0x11), (15, 0x55)]) with pc := 0x202 } := by decide
theorem test_nopClass5 : stepped (launch 0x5121 (regs [(1, 0x22), (15, 0x55)])) =
    some { launch 0x5121 (regs [(1, 0x22), (15, 0x55)]) with pc := 0x202 } := by decide
theorem test_nopClass8 : stepped (launch 0x8AB8 (regs [(10, 0x33), (11, 0x44)])) =
    some { launch 0x8AB8 (regs [(10, 0x33), (11, 0x44)]) with pc := 0x202 } := by decide
theorem test_nopClass9 : stepped (launch 0x9AB3 (regs [(10, 0x33), (11, 0x44)])) =
    some { launch 0x9AB3 (regs [(10, 0x33), (11, 0x44)]) with pc := 0x202 } := by decide
theorem test_nopClassE : stepped (launch 0xE19F (regs [(1, 0x22)])) =
    some { launch 0xE19F (regs [(1, 0x22)]) with pc := 0x202 } := by decide
theorem test_nopClassF : stepped (launch 0xF108 (regs [(1, 0x22)])) =
    some { launch 0xF108 (regs [(1, 0x22)]) with pc := 0x202 } := by decide

/-! ## Control transfer (T-FLOW) -/

/-- T-FLOW-02. -/
theorem test_jp : after 0x1ABC State.reset (·.pc) = some 0xABC := by decide
/-- T-FLOW-06: the 16th push succeeds. -/
theorem test_call_16th : after 0x2300 { State.reset with sp := 15 } (fun t => (t.pc, t.sp, t.slot 15)) =
    some (0x300, 16, 0x202) := by decide
/-- T-FLOW-07: the 17th faults; PC is the CALL's address + 2. -/
theorem test_call_overflow : after 0x2300 { State.reset with sp := 16 } (fun t => (t.pc, t.sp, t.fault)) =
    some (0x202, 16, some .stackOverflow) := by decide
/-- T-FLOW-09. -/
theorem test_ret : after 0x00EE { State.reset with sp := 16, stk := State.reset.stk.set 15 0xABC }
    (fun t => (t.pc, t.sp)) = some (0xABC, 15) := by decide
/-- T-FLOW-10. -/
theorem test_ret_underflow : after 0x00EE State.reset (fun t => (t.pc, t.sp, t.fault)) =
    some (0x202, 0, some .stackUnderflow) := by decide
/-- T-FLOW-12: not reduced to 12 bits. -/
theorem test_jpV0_unmasked : after 0xBFFF (regs [(0, 0xFF)]) (·.pc) = some 0x10FE := by decide
/-- T-FLOW-13: always V0. -/
theorem test_jpV0_not_vx : after 0xB300 (regs [(3, 0x55)]) (·.pc) = some 0x300 := by decide

/-! ## Skips (T-SKIP) -/

/-- T-SKIP-01, T-SKIP-02. -/
theorem test_seImm : after 0x332A (regs [(3, 0x2A)]) (·.pc) = some 0x204 ∧
    after 0x332A (regs [(3, 0x2B)]) (·.pc) = some 0x202 := by decide
/-- T-SKIP-03, T-SKIP-04. -/
theorem test_sneImm : after 0x432A (regs [(3, 0x2A)]) (·.pc) = some 0x202 ∧
    after 0x432A (regs [(3, 0x2B)]) (·.pc) = some 0x204 := by decide
/-- T-SKIP-05, T-SKIP-06. -/
theorem test_seReg : after 0x5120 (regs [(1, 7), (2, 7)]) (·.pc) = some 0x204 ∧
    after 0x5120 (regs [(1, 7), (2, 8)]) (·.pc) = some 0x202 := by decide
/-- T-SKIP-08, T-SKIP-09. -/
theorem test_sneReg : after 0x9120 (regs [(1, 7), (2, 8)]) (·.pc) = some 0x204 ∧
    after 0x9120 (regs [(1, 7), (2, 7)]) (·.pc) = some 0x202 := by decide
/-- T-SKIP-15: the low nibble names the key. -/
theorem test_skp_low_nibble : after 0xE09E (envKeyDown 5 (regs [(0, 0x15)])) (·.pc) = some 0x204 := by decide
/-- T-SKIP-17: the key is the value of V5, not the field 5. -/
theorem test_skp_value : after 0xE59E (envKeyDown 5 State.reset) (·.pc) = some 0x202 := by decide
/-- T-SKIP-13, T-SKIP-16. -/
theorem test_sknp : after 0xE0A1 (regs [(0, 5)]) (·.pc) = some 0x204 ∧
    after 0xE0A1 (envKeyDown 5 (regs [(0, 0xF5)])) (·.pc) = some 0x202 := by decide

/-! ## Register load, arithmetic and logic (T-ALU) -/

/-- T-ALU-01. -/
theorem test_ldImm : after 0x6A05 State.reset (fun t => (t.reg 10, t.pc)) = some (5, 0x202) := by decide
/-- T-ALU-02: wraps, VF untouched. -/
theorem test_addImm_wraps : after 0x7103 (regs [(1, 0xFE), (15, 0x77)]) (fun t => (t.reg 1, t.reg 15)) =
    some (0x01, 0x77) := by decide
/-- T-ALU-04. -/
theorem test_ldReg : after 0x8120 (regs [(2, 0x77)]) (fun t => (t.reg 1, t.reg 2)) = some (0x77, 0x77) := by decide
/-- T-ALU-05, T-ALU-06, T-ALU-07: VF untouched. -/
theorem test_orReg : after 0x8121 (regs [(1, 0xF0), (2, 0x0F), (15, 0x77)]) (fun t => (t.reg 1, t.reg 15)) =
    some (0xFF, 0x77) := by decide
theorem test_andReg : after 0x8122 (regs [(1, 0xF0), (2, 0x3C), (15, 0x77)]) (fun t => (t.reg 1, t.reg 15)) =
    some (0x30, 0x77) := by decide
theorem test_xorReg : after 0x8123 (regs [(1, 0xF0), (2, 0x3C), (15, 0x77)]) (fun t => (t.reg 1, t.reg 15)) =
    some (0xCC, 0x77) := by decide
/-- T-ALU-08. -/
theorem test_addReg_carry : after 0x8124 (regs [(1, 0xFF), (2, 0x01)]) (fun t => (t.reg 1, t.reg 15)) =
    some (0x00, 0x01) := by decide
/-- T-ALU-25: VF as destination, the result wins. -/
theorem test_addReg_vf : after 0x8F14 (regs [(15, 0xFF), (1, 0x01)]) (·.reg 15) = some 0x00 := by decide
/-- T-ALU-13. -/
theorem test_sub_borrow : after 0x8125 (regs [(1, 0x02), (2, 0x05), (15, 1)]) (fun t => (t.reg 1, t.reg 15)) =
    some (0xFD, 0x00) := by decide
/-- T-ALU-12: equal operands give VF = 0. -/
theorem test_sub_equal : after 0x8125 (regs [(1, 0x07), (2, 0x07), (15, 1)]) (fun t => (t.reg 1, t.reg 15)) =
    some (0x00, 0x00) := by decide
/-- T-ALU-18: y has no effect, even y = F. -/
theorem test_shr_ignores_y : after 0x81F6 (regs [(1, 0x04), (15, 0x03)]) (fun t => (t.reg 1, t.reg 15)) =
    some (0x02, 0x00) := by decide
/-- T-ALU-15. -/
theorem test_shr_flag : after 0x8126 (regs [(1, 0x05), (2, 0xAA)]) (fun t => (t.reg 1, t.reg 15)) =
    some (0x02, 0x01) := by decide
/-- T-ALU-19. -/
theorem test_subn : after 0x8127 (regs [(1, 0x02), (2, 0x05)]) (fun t => (t.reg 1, t.reg 15)) =
    some (0x03, 0x01) := by decide
/-- T-ALU-31. -/
theorem test_subn_vf : after 0x8F17 (regs [(15, 0x02), (1, 0x09)]) (·.reg 15) = some 0x07 := by decide
/-- T-ALU-22. -/
theorem test_shl_flag : after 0x812E (regs [(1, 0x81), (2, 0xAA)]) (fun t => (t.reg 1, t.reg 15)) =
    some (0x02, 0x01) := by decide
/-- T-ALU-28. -/
theorem test_shl_vf : after 0x8F0E (regs [(15, 0x81)]) (·.reg 15) = some 0x02 := by decide
/-- T-ALU-34: kk = 0 gives 0, whatever byte is drawn. -/
theorem test_rnd_zero_mask : ∃ t, exec (.rnd 1 0) (regs [(1, 0x55)]) = .next t ∧ t.reg 1 = 0 := by
  refine ⟨_, rfl, ?_⟩
  show ((regs [(1, 0x55)]).setReg 1 (_ &&& 0)).reg 1 = 0
  rw [State.reg_setReg_same]
  exact BitVec.and_zero

/-! ## Index register and memory transfer (T-IDX, T-FLT) -/

/-- T-IDX-01. -/
theorem test_ldI : after 0xA123 State.reset (·.i) = some 0x123 := by decide
/-- T-IDX-03: out of the address space, no flag, no fault. -/
theorem test_addIVx_unmasked : after 0xF21E (atI 0xFFF [] (regs [(2, 1), (15, 0x77)])) (fun t => (t.i, t.reg 15, t.fault)) =
    some (0x1000, 0x77, none) := by decide
/-- T-IDX-04. -/
theorem test_addIVx_wraps : after 0xF21E (atI 0xFFFF [] (regs [(2, 2)])) (·.i) = some 0x0001 := by decide
/-- T-IDX-07: the whole 8-bit value. -/
theorem test_ldFVx : after 0xF329 (regs [(3, 0xFF)]) (·.i) = some 0x04FB := by decide
/-- T-IDX-14. -/
theorem test_ldBVx : after 0xF433 (atI 0x300 [0xEE, 0xEE, 0xEE] (regs [(4, 0x9C)]))
    (fun t => (t.byte 0x300, t.byte 0x301, t.byte 0x302, t.i)) = some (1, 5, 6, 0x300) := by decide
/-- R153, R58: the third byte would be at 4096, so no digit is stored. -/
theorem test_ldBVx_fault : after 0xF433 (atI 0xFFE [0x11, 0x22] (regs [(4, 0x9C)]))
    (fun t => (t.byte 0xFFE, t.byte 0xFFF, t.fault)) = some (0x11, 0x22, some .outOfBounds) := by decide
/-- T-IDX-19. -/
theorem test_ldMemVx : after 0xF255 (atI 0x400 [] (regs [(0, 0x11), (1, 0x22), (2, 0x33), (3, 0x44)]))
    (fun t => (t.byte 0x400, t.byte 0x401, t.byte 0x402, t.byte 0x403)) = some (0x11, 0x22, 0x33, 0x00) := by decide
/-- T-IDX-20: up to the last byte of memory. -/
theorem test_ldMemVx_top : after 0xFF55 (atI 0xFF0 [] (regs [(0, 0xA0), (15, 0xAF)]))
    (fun t => (t.byte 0xFF0, t.byte 0xFFF, t.fault)) = some (0xA0, 0xAF, none) := by decide
/-- T-IDX-22. -/
theorem test_ldVxMem : after 0xF265 (atI 0x400 [0xAA, 0xBB, 0xCC, 0xDD] (regs [(3, 0x99)]))
    (fun t => (t.reg 0, t.reg 1, t.reg 2, t.reg 3)) = some (0xAA, 0xBB, 0xCC, 0x99) := by decide
/-- T-FLT-17: V0 is not loaded. -/
theorem test_ldVxMem_fault : after 0xF165 (atI 0xFFF [0x5A] (regs [(0, 0x11), (1, 0x22)]))
    (fun t => (t.reg 0, t.reg 1, t.fault)) = some (0x11, 0x22, some .outOfBounds) := by decide

/-! ## Display (T-DRW) -/

/-- T-DRW-01. -/
theorem test_cls : after 0x00E0 { (regs [(15, 1)]) with fb := Framebuffer.setCell State.reset.fb 63 31 true }
    (fun t => (t.fb, t.reg 15)) = some (State.reset.fb, 1) := by decide
/-- T-DRW-04: wraps in both directions. -/
theorem test_drw_wraps : after 0xD015 (atI 0x4B [] (regs [(0, 0x3E), (1, 0x1E)]))
    (fun t => (t.cell 0 0, t.cell 62 30, t.cell 62 31, t.cell 63 31, t.reg 15)) =
    some (true, true, true, false, 0) := by decide
/-- T-DRW-07: lit cells under set bits go out, the others stay, and VF = 1. -/
theorem test_drw_collision : after 0xD011
    (atI 0x300 [0x90] { State.reset with fb := Framebuffer.setCell (Framebuffer.setCell State.reset.fb 0 0 true) 1 0 true })
    (fun t => (t.cell 0 0, t.cell 1 0, t.cell 3 0, t.reg 15)) = some (false, true, true, 1) := by decide

/-! ## Timers and the key latch (T-TMR) -/

/-- T-TMR-01. -/
theorem test_ldVxDt : after 0xF507 { State.reset with dt := 0x3C } (fun t => (t.reg 5, t.dt)) = some (0x3C, 0x3C) := by
  decide
/-- T-TMR-02. -/
theorem test_ldDtVx : after 0xF215 (regs [(2, 0x3C)]) (fun t => (t.dt, t.st)) = some (0x3C, 0) := by decide
/-- T-TMR-04. -/
theorem test_ldStVx : after 0xF218 (regs [(2, 0x05)]) (fun t => (t.st, t.dt, t.tone)) = some (5, 0, true) := by decide
/-- T-TMR-06: the latch stays. -/
theorem test_ldVxK : after 0xF30A (envKeyDown 7 State.reset) (fun t => (t.reg 3, t.latch)) = some (7, some 7) := by decide
/-- T-TMR-07: an empty latch leaves V3 and does not wait. -/
theorem test_ldVxK_empty : after 0xF30A (regs [(3, 0xFF)]) (fun t => (t.reg 3, t.pc)) = some (0xFF, 0x202) := by decide

/-! ## Fetch and faults (T-FLT) -/

/-- R101: a fetch at 0x0FFF faults and leaves PC. -/
theorem test_fetch_fault : (stepped { State.reset with pc := 0xFFF }).map (fun t => (t.pc, t.fault)) =
    some (0xFFF, some .outOfBounds) := by decide
/-- T-FLT-20: STEP does nothing while FAULT is set. -/
theorem test_faulted_step : stepped { launch 0x6A05 State.reset with fault := some .stackUnderflow } =
    some { launch 0x6A05 State.reset with fault := some .stackUnderflow } := by decide
/-- R200: the codes of the causes and the error of a LOAD. -/
theorem test_fault_codes : Fault.outOfBounds.code = 1 ∧ Fault.stackOverflow.code = 2 ∧ Fault.stackUnderflow.code = 3 ∧
    LoadResult.programTooLarge.error = some (4, .loadError) := by decide

/-! ## The environment (T-HOST) -/

/-- T-HOST-04. -/
theorem test_load : (fun p : State × LoadResult => (p.2, p.1.pc, p.1.byte 0x200, p.1.byte 0x201, p.1.byte 0x202))
    (envLoad [0x6A, 0x05] State.reset) = (.ok, 0x200, 0x6A, 0x05, 0x00) := by decide
/-- T-HOST-09, T-HOST-11: the timers stop at zero and count independently. -/
theorem test_tick : envTick State.reset = State.reset ∧
    (envTick { State.reset with dt := 5, st := 2 }).dt = 4 ∧ (envTick { State.reset with dt := 5, st := 2 }).st = 1 := by
  decide
/-- R186: the latch is cleared whichever key goes up. -/
theorem test_keyUp : (envKeyUp 3 (envKeyDown 4 State.reset)).latch = none ∧
    (envKeyUp 3 (envKeyDown 4 State.reset)).keyDown 4 = true := by decide

/-! ## Witnesses: for every statement with hypotheses, a state and operands that meet them -/

theorem witness_DecodeOfEncodeIsTheInstruction :
    (Instr.ldVxMem 15).wellFormed = true ∧ (Instr.nopClass8 0xAB8).wellFormed = true := by decide
theorem witness_RowsSelectedByMaskAndMatch :
    Instr.cls.isNopClass = false ∧ (0x00E0 : Word16) &&& Instr.cls.mask = Instr.cls.matchBits ∧
      (decodeWord 0x00E1).isNopClass = true := by decide
/-- The last byte, and the first address beyond it. -/
theorem witness_ByteWriteThenRead : Memory.wf [(0x300, 7)] = true ∧ 4095 < 4096 ∧ 4096 ≥ 4096 ∧ 0x300 ≠ 4095 := by decide
theorem witness_WordReadIsBigEndian : 4094 + 1 < 4096 ∧ 4095 + 1 ≥ 4096 := by decide

/-- A state at the last word address, `LD VA, 5` there. -/
def atTop : State := ({ State.reset with pc := 0xFFE }).withFetchWord 16 0x6A05

theorem witness_StepRunsTheDecodedInstruction :
    atTop.fault = none ∧ atTop.pc.toNat ≤ 0xFFE ∧
      decode [atTop.byte atTop.pc.toNat, atTop.byte (atTop.pc.toNat + 1)] = .ok (.ldImm 10 5, []) :=
  ⟨by decide, by decide, by rfl⟩
theorem witness_FetchFaultKeepsEverythingElse :
    ({ State.reset with pc := 0xFFF }).fault = none ∧ 0xFFF ≤ ({ State.reset with pc := 0xFFF }).pc.toNat := by decide
theorem witness_FaultedStepChangesNothing :
    ({ State.reset with fault := some .stackOverflow }).fault = some .stackOverflow := by decide
theorem witness_PlacedWordRunsNext :
    Memory.wf State.reset.mem = true ∧ State.reset.fault = none ∧ State.reset.pc.toNat ≤ 0xFFE ∧
      Memory.wf ({ State.reset with pc := 0xFFE }).mem = true ∧ ({ State.reset with pc := 0xFFE }).fault = none ∧
      ({ State.reset with pc := 0xFFE }).pc.toNat ≤ 0xFFE := by decide
theorem witness_JumpToItselfChangesNoState :
    (launch 0x1200 State.reset).fault = none ∧ JumpsToItself (launch 0x1200 State.reset) :=
  ⟨by decide, 0x200#12, by decide, 0x1200#16, by rfl, by decide⟩
/-- The first and the last free slot. -/
theorem witness_CallPushesReturnAddress :
    State.reset.sp.val = (0 : Fin 16).val ∧ ({ State.reset with sp := 15 }).sp.val = (15 : Fin 16).val := by decide
/-- One address held, and a full stack. -/
theorem witness_ReturnPopsIntoPc :
    ({ State.reset with sp := 1 }).sp.val = (0 : Fin 16).val + 1 ∧
      ({ State.reset with sp := 16 }).sp.val = (15 : Fin 16).val + 1 := by decide
theorem witness_ReturnResumesAfterCall :
    State.reset.sp.val < 16 ∧ ∃ t, exec (.call 0x300) State.reset = .next t ∧
      ∃ u : State, u.sp = t.sp ∧ u.stk = t.stk ∧ u.pc = 0x304 :=
  ⟨by decide, _, rfl, { State.reset with sp := 1, pc := 0x304 }, rfl, by decide, rfl⟩
/-- A value above 15 names the key of its low nibble, a value up to 15 the key itself. -/
theorem witness_SkipsOnKeys :
    (5 : KeyId).val = ((regs [(0, 0xF5)]).reg 0).toNat % 16 ∧ (15 : KeyId).val = ((regs [(0, 0x0F)]).reg 0).toNat % 16 := by
  decide
theorem witness_AddSubtractResultsAndFlags : (14 : Reg) ≠ 15 ∧ (0 : Reg) ≠ 15 := by decide
theorem witness_ShiftResultsAndFlags : (14 : Reg) ≠ 15 := by decide
theorem witness_VfAsOperandOfFlagWriters : (1 : Reg) ≠ 15 := by decide
theorem witness_RandomByteIsMasked : (0x00 : Byte) = 0 ∧ (0x0F : Byte) ≠ 0 := by decide
/-- The last three bytes of memory. -/
theorem witness_BcdStoresThreeDigits :
    Memory.wf (atI 0xFFD [] State.reset).mem = true ∧ (atI 0xFFD [] State.reset).ea 2 < 4096 := by decide
/-- Sixteen registers to the last sixteen bytes, and one to the last byte. -/
theorem witness_RegisterStoreWritesV0ToVx :
    Memory.wf (atI 0xFF0 [] State.reset).mem = true ∧ (atI 0xFF0 [] State.reset).ea (15 : Reg).val < 4096 ∧
      Memory.wf (atI 0xFFF [] State.reset).mem = true ∧ (atI 0xFFF [] State.reset).ea (0 : Reg).val < 4096 := by decide
theorem witness_RegisterLoadReadsV0ToVx :
    (atI 0xFF0 [] State.reset).ea (15 : Reg).val < 4096 ∧ (atI 0xFFF [] State.reset).ea (0 : Reg).val < 4096 := by decide
theorem witness_LoadAfterStoreRestoresRegisters :
    Memory.wf (atI 0xFF0 [] State.reset).mem = true ∧ (atI 0xFF0 [] State.reset).ea (15 : Reg).val < 4096 ∧
      ∃ t, exec (.ldMemVx 15) (atI 0xFF0 [] State.reset) = .next t ∧
        ∃ u : State, u.i = (atI 0xFF0 [] State.reset).i ∧ u.mem = t.mem ∧ u.reg 0 = 9 :=
  ⟨by decide, by decide, _, rfl, atI 0xFF0 [] (regs [(0, 9)]), by decide, by decide, by decide⟩

/-- PC at 0x0FFE, the last word of memory, and I as given. -/
def fetchTop (i : Word16) : State := { atI i [] (regs [(0, 0x6F), (1, 0x42)]) with pc := 0xFFE }

/-- Both fetched bytes stored, by LD [I], V1. -/
theorem witness_StoreIsSeenByTheNextFetch :
    Memory.wf (fetchTop 0xFFE).mem = true ∧ (fetchTop 0xFFE).pc.toNat ≤ 0xFFE ∧ (fetchTop 0xFFE).ea (1 : Reg).val < 4096 ∧
      (fetchTop 0xFFE).pc.toNat = (fetchTop 0xFFE).ea 0 ∧ (fetchTop 0xFFE).pc.toNat + 1 = (fetchTop 0xFFE).ea 1 := by decide
/-- The first fetched byte alone, by the last byte LD B stores. -/
theorem witness_StoreIsSeenByTheNextFetch_last :
    Memory.wf (fetchTop 0xFFC).mem = true ∧ (fetchTop 0xFFC).pc.toNat ≤ 0xFFE ∧ (fetchTop 0xFFC).ea 2 < 4096 ∧
      (fetchTop 0xFFC).pc.toNat = (fetchTop 0xFFC).ea 2 ∧
      ∀ k, k < 3 → (fetchTop 0xFFC).pc.toNat + 1 ≠ (fetchTop 0xFFC).ea k := by decide
/-- The second fetched byte alone, by LD [I], V0. -/
theorem witness_StoreIsSeenByTheNextFetch_first :
    Memory.wf (fetchTop 0xFFF).mem = true ∧ (fetchTop 0xFFF).pc.toNat ≤ 0xFFE ∧ (fetchTop 0xFFF).ea (0 : Reg).val < 4096 ∧
      (fetchTop 0xFFF).pc.toNat + 1 = (fetchTop 0xFFF).ea 0 ∧
      ∀ k, k < 1 → (fetchTop 0xFFF).pc.toNat ≠ (fetchTop 0xFFF).ea k := by decide
/-- A ROM of two bytes, and one of none. -/
theorem witness_StoreIsSeenByTheNextFetch_load :
    Memory.wf State.reset.mem = true ∧ ([0xAB, 0xCD] : List Byte).length ≤ 3584 ∧ ([] : List Byte).length ≤ 3584 := by decide
/-- Rows up to the last byte of memory, and no rows with I out of range. -/
theorem witness_DrawTogglesCoveredCells_range :
    (atI 0xFF1 [] State.reset).ea ((15 : Fin 16).val - 1) < 4096 ∧ (0 : Fin 16).val = 0 ∧
      (atI 0xFFFF [] State.reset).ea 0 ≥ 4096 := by decide
/-- A covered cell that is lit (the sprite's last bit, wrapped), a covered one that is not, one not covered. -/
theorem witness_DrawTogglesCoveredCells :
    SpriteCovers (atI 0x300 [0x81] { State.reset with fb := Framebuffer.setCell State.reset.fb 6 31 true }) 0xFF 0xFF 1 6 31 ∧
      (atI 0x300 [0x81] { State.reset with fb := Framebuffer.setCell State.reset.fb 6 31 true }).cell 6 31 = true ∧
      SpriteCovers (atI 0x300 [0x81] State.reset) 0xFF 0xFF 1 63 31 ∧
      ¬ SpriteCovers (atI 0x300 [0x81] State.reset) 0xFF 0xFF 1 0 0 := by
  refine ⟨⟨0, by decide, 7, by decide, by decide, by decide, by decide⟩, by decide,
    ⟨0, by decide, 0, by decide, by decide, by decide, by decide⟩, ?_⟩
  rintro ⟨row, hrow, col, hcol, -, -, hr⟩
  have h0 : row = 0 := by omega
  subst h0
  exact absurd hr (by decide)
/-- A second draw from the state the first left; the sprite covers a cell, and every covered cell was dark. -/
theorem witness_DrawingTwiceRestoresTheScreen :
    (atI 0x300 [0x81] State.reset).ea ((1 : Fin 16).val - 1) < 4096 ∧
      (∃ t, exec (.drw 0 1 1) (atI 0x300 [0x81] State.reset) = .next t ∧
        ∃ u : State, u.fb = t.fb ∧ u.mem = (atI 0x300 [0x81] State.reset).mem ∧ u.i = (atI 0x300 [0x81] State.reset).i ∧
          u.reg 0 = (atI 0x300 [0x81] State.reset).reg 0 ∧ u.reg 1 = (atI 0x300 [0x81] State.reset).reg 1) ∧
      SpriteCovers (atI 0x300 [0x81] State.reset) ((atI 0x300 [0x81] State.reset).reg 0)
        ((atI 0x300 [0x81] State.reset).reg 1) (1 : Fin 16).val 0 0 ∧
      ∀ c r, (atI 0x300 [0x81] State.reset).cell c r = false := by
  refine ⟨by decide, ⟨_, rfl, { atI 0x300 [0x81] State.reset with
    fb := (drawSprite 0 1 (atI 0x300 [0x81] State.reset) [0x81]).fb }, by decide, by decide, by decide, by decide, by decide⟩,
    ⟨0, by decide, 0, by decide, by decide, by decide, by decide⟩, Framebuffer.cell_blank⟩
theorem witness_LatchReadNeverWaits : (envKeyDown 15 State.reset).latch = some 15 ∧ State.reset.latch = none := by decide
theorem witness_NopClassOnlyAdvancesPc :
    (launch 0xF108 State.reset).fault = none ∧ fetchWord (launch 0xF108 State.reset) = .ok 0xF108 ∧
      (decodeWord 0xF108).isNopClass = true := ⟨by decide, by rfl, by decide⟩
/-- Each fault of the tables, at the first state that raises it and at the last that does not. -/
theorem witness_FaultsExactlyWhereListed :
    State.reset.fault = none ∧ faultIn .ret State.reset = some .stackUnderflow ∧
      faultIn .ret { State.reset with sp := 1 } = none ∧
      faultIn (.call 0) { State.reset with sp := 16 } = some .stackOverflow ∧
      faultIn (.call 0) { State.reset with sp := 15 } = none ∧
      faultIn (.drw 0 1 1) (atI 0x1000 [] State.reset) = some .outOfBounds ∧
      faultIn (.drw 0 1 1) (atI 0xFFF [] State.reset) = none ∧ faultIn (.drw 0 1 0) (atI 0xFFFF [] State.reset) = none ∧
      faultIn (.ldBVx 0) (atI 0xFFE [] State.reset) = some .outOfBounds ∧
      faultIn (.ldBVx 0) (atI 0xFFD [] State.reset) = none ∧
      faultIn (.ldMemVx 15) (atI 0xFF1 [] State.reset) = some .outOfBounds ∧
      faultIn (.ldVxMem 0) (atI 0x1000 [] State.reset) = some .outOfBounds := by decide
theorem witness_FaultStaysUntilReset :
    ({ State.reset with fault := some .outOfBounds }).fault = some .outOfBounds ∧
      ∀ font, Operation.reset font ∉ [Operation.step, .tick, .keyDown 4, .load [0x12, 0x00]] :=
  ⟨by decide, fun font h => by simp at h⟩
theorem witness_EachPartHasOnlyItsWriters :
    exec (.ldImm 3 7) State.reset = .next (State.reset.setReg 3 7) ∧
      exec (.ldStVx 0) State.reset = .next State.reset ∧
      (∃ t, exec (.ldBVx 0) (atI 0xFFD [] State.reset) = .next t ∧ faultIn (.ldBVx 0) (atI 0xFFD [] State.reset) = none) ∧
      ∃ t, exec (.ldMemVx 15) (atI 0xFF1 [] State.reset) = .next t ∧
        faultIn (.ldMemVx 15) (atI 0xFF1 [] State.reset) = some .outOfBounds :=
  ⟨by rfl, by rfl, ⟨_, rfl, by decide⟩, ⟨_, rfl, by decide⟩⟩
/-- The bytes the frame of a store leaves out: the ones beside it, and every byte where it faults. -/
theorem test_mayWrite_names_bytes :
    ¬ mayWrite (.ldBVx 0) (atI 0x300 [] State.reset) (.byte 0x303) ∧
      ¬ mayWrite (.ldMemVx 2) (atI 0x300 [] State.reset) (.byte 0x2FF) ∧
      ¬ mayWrite (.ldMemVx 15) (atI 0xFF1 [] State.reset) (.byte 0xFF1) := by
  refine ⟨?_, ?_, nofun⟩ <;> rintro ⟨k, hk, h⟩ <;> have h' := Part.byte.inj h <;> rcases k with _ | _ | _ | k <;>
    first
      | exact absurd h' (by decide)
      | exact absurd hk (by simp)
/-- The reset state has the invariant (the bounds of R24 by evaluation). -/
theorem reset_inv : Inv State.reset :=
  ⟨by decide, by decide, fun k => (by decide : ∀ k : Fin 16, (State.reset.slot k).toNat ≤ 0x1000) k,
    fun _ h => by cases h⟩
theorem witness_StepKeepsTheInvariant :
    Inv State.reset ∧ step State.reset = .next { State.reset with pc := 2 } := ⟨reset_inv, by rfl⟩
theorem witness_SchedulesKeepTheInvariant :
    Inv State.reset ∧ runOps [.load [0x6A, 0x05], .tick, .keyDown 3, .keyUp 3, .readStatus] State.reset =
      .next { (launch 0x6A05 State.reset) with pc := 0x200 } := ⟨reset_inv, by rfl⟩
/-- A TICK; a STEP that runs `LD VA, 5`, which moves neither timer. -/
theorem witness_TimersMoveOnlyAsListed :
    operate .tick State.reset = .next (State.reset, .nothing) ∧
      operate .step (launch 0x6A05 State.reset) =
        .next ({ (launch 0x6A05 State.reset).setReg 10 5 with pc := 0x202 }, .nothing) ∧
      (∀ w x, fetchWord (launch 0x6A05 State.reset) = .ok w → decodeWord w ≠ .ldDtVx x) ∧
      ∀ w x, fetchWord (launch 0x6A05 State.reset) = .ok w → decodeWord w ≠ .ldStVx x := by
  have hf : fetchWord (launch 0x6A05 State.reset) = .ok 0x6A05 := by rfl
  have hd : decodeWord 0x6A05 = .ldImm 10 5 := by decide
  refine ⟨by rfl, by rfl, fun w x h hw => ?_, fun w x h hw => ?_⟩ <;> cases hf.symm.trans h <;> cases hd.symm.trans hw
/-- The ends of the ranges of addresses. -/
theorem witness_ResetValues : 80 ≤ 80 ∧ 80 < 4096 ∧ 80 ≤ 4095 ∧ 4095 < 4096 := by decide
/-- The longest ROM, and one byte more. -/
theorem witness_LoadCopiesTheRom :
    Memory.wf State.reset.mem = true ∧ (List.replicate 3584 (0xAA : Byte)).length ≤ 3584 ∧
      (List.replicate 3585 (0xAA : Byte)).length > 3584 :=
  ⟨by decide, by rw [List.length_replicate], by rw [List.length_replicate]; decide⟩

end Sys2Proof.Tests
end

section
/-! SUPPORT. The state of the core: which parts each operation may change, and the invariant every operation keeps
(rules R20 to R35). The rules of `Effect` say once what each kind of update leaves alone; `exec_effect` puts them together
with one arm per instruction, and the statements about parts, timers and the invariant are read off it. -/

namespace Sys2Proof.Machine

open Host (Outcome)

/-! ## Effects -/

theorem Part.same_refl (p : Part) (s : State) : p.same s s := by
  cases p <;> rfl

theorem Part.same_trans {p : Part} {s t u : State} (hst : p.same s t) (htu : p.same t u) : p.same s u := by
  cases p <;> exact Eq.trans htu hst

/-- An effect that changes no part outside `writes` and keeps the canonical form of memory. -/
structure Effect (writes : Part → Prop) (s t : State) : Prop where
  /-- Every part outside `writes` is the same. -/
  frame : UnchangedOutside writes s t
  /-- Memory stays in its canonical form. -/
  wf : Memory.wf s.mem = true → Memory.wf t.mem = true

namespace Effect

variable {writes : Part → Prop} {s t u : State}

theorem refl : Effect writes s s := ⟨fun p _ => p.same_refl s, id⟩

theorem trans (hst : Effect writes s t) (htu : Effect writes t u) : Effect writes s u where
  frame p hp := Part.same_trans (hst.frame p hp) (htu.frame p hp)
  wf := htu.wf ∘ hst.wf

theorem setRegs {v : Vector Byte 16} (h : ∀ r, ¬ writes (.reg r) → v.get r = s.reg r) :
    Effect writes s { s with v := v } where
  frame p hp := by
    cases p with
    | reg r => exact h r hp
    | _ => rfl
  wf := id

theorem setReg {x : Reg} {b : Byte} (h : writes (.reg x)) : Effect writes s (s.setReg x b) :=
  setRegs fun _ hr => State.reg_setReg_other s b fun he => hr (he ▸ h)

theorem setFlagThenReg {x : Reg} {c : Bool} {b : Byte} (hx : writes (.reg x)) (hf : writes (.reg regF)) :
    Effect writes s (flagThenResult x c b s) :=
  (setReg hf).trans (setReg hx)

theorem loadRegs {bs : List Byte} (h : ∀ r : Reg, r.val < bs.length → writes (.reg r)) :
    Effect writes s (s.loadRegs bs) :=
  setRegs fun r hr => by
    have hlen : bs.length ≤ r.val := Nat.le_of_not_lt fun hlt => hr (h r hlt)
    rw [← List.getD_eq_default bs (s.reg r) hlen]
    exact State.reg_loadRegs s bs r

theorem setIndex {w : Word16} (h : writes .index) : Effect writes s { s with i := w } where
  frame p hp := by
    cases p with
    | index => exact absurd h hp
    | _ => rfl
  wf := id

theorem setPc {w : Word16} (h : writes .pc) : Effect writes s { s with pc := w } where
  frame p hp := by
    cases p with
    | pc => exact absurd h hp
    | _ => rfl
  wf := id

theorem setSp {n : Fin 17} (h : writes .sp) : Effect writes s { s with sp := n } where
  frame p hp := by
    cases p with
    | sp => exact absurd h hp
    | _ => rfl
  wf := id

theorem setSlot {n : Nat} {hn : n < 16} {w : Word16} (h : writes (.slot ⟨n, hn⟩)) :
    Effect writes s { s with stk := s.stk.set n w hn } where
  frame p hp := by
    cases p with
    | slot k =>
      refine (get_set_slot s.stk n hn w k).trans (if_neg fun he => hp ?_)
      rwa [show k = ⟨n, hn⟩ from Fin.ext he]
    | _ => rfl
  wf := id

theorem setDt {b : Byte} (h : writes .dt) : Effect writes s { s with dt := b } where
  frame p hp := by
    cases p with
    | dt => exact absurd h hp
    | _ => rfl
  wf := id

theorem setSt {b : Byte} (h : writes .st) : Effect writes s { s with st := b } where
  frame p hp := by
    cases p with
    | st => exact absurd h hp
    | _ => rfl
  wf := id

theorem setFault {f : Option Fault} (h : writes .fault) : Effect writes s { s with fault := f } where
  frame p hp := by
    cases p with
    | fault => exact absurd h hp
    | _ => rfl
  wf := id

theorem setDraws {n : Nat} (h : writes .draws) : Effect writes s { s with rndDraws := n } where
  frame p hp := by
    cases p with
    | draws => exact absurd h hp
    | _ => rfl
  wf := id

theorem setFb {fb : Framebuffer} (h : ∀ c r, ¬ writes (.cell c r) → Framebuffer.cell fb c r = s.cell c r) :
    Effect writes s { s with fb := fb } where
  frame p hp := by
    cases p with
    | cell c r => exact h c r hp
    | _ => rfl
  wf := id

theorem storeFrom {a : Nat} {bs : List Byte} (h : ∀ k, k < bs.length → writes (.byte (a + k))) :
    Effect writes s { s with mem := Memory.storeFrom s.mem a bs } where
  frame p hp := by
    cases p with
    | byte q =>
      refine Memory.byteAt_storeFrom_outside s.mem (Decidable.byContradiction fun hq => hp ?_)
      have hw := h (q - a) (by omega)
      rwa [Nat.add_sub_cancel' (by omega)] at hw
    | _ => rfl
  wf h := Memory.wf_storeFrom h a bs

/-- The skip action moves PC alone (R120). -/
theorem of_skipIf {c : Bool} (hpc : writes .pc) (h : skipIf c s = .next t) : Effect writes s t := by
  cases h
  cases c
  · exact refl
  · exact setPc hpc

/-- A fault changes FAULT alone (R206, R207). -/
theorem of_fault {i : Instr} {f : Fault} (hf : faultIn i s = some f) :
    Effect (mayWrite i s) s { s with fault := some f } :=
  setFault ((mayWrite_of_fault hf _).mpr rfl)

theorem of_none {i : Instr} (hf : faultIn i s = none) (h : Effect (writesOf i s) s t) :
    Effect (mayWrite i s) s t where
  frame p hp := h.frame p fun hw => hp ((mayWrite_of_none hf p).mpr hw)
  wf := h.wf

end Effect

/-! ## The instructions that can fault -/

/-- Everything RET can do (R110, R203). -/
theorem execRet_cases {s t : State} (h : exec .ret s = .next t) :
    (s.sp.val = 0 ∧ t = { s with fault := some .stackUnderflow }) ∨
      ∃ (_ : 0 < s.sp.val) (hlt : s.sp.val - 1 < 16),
        t = { s with sp := ⟨s.sp.val - 1, by omega⟩, pc := s.slot ⟨s.sp.val - 1, hlt⟩ } := by
  change commit (stackPopToPc s) s = .next t at h
  by_cases hsp : s.sp.val = 0
  · rw [stackPopToPc_empty hsp] at h
    cases h
    exact .inl ⟨hsp, rfl⟩
  · have hpos := Nat.pos_of_ne_zero hsp
    rw [stackPopToPc_of_pos hpos] at h
    cases h
    exact .inr ⟨hpos, by omega, rfl⟩

/-- Everything CALL can do (R112, R202). -/
theorem execCall_cases {nnn : BitVec 12} {s t : State} (h : exec (.call nnn) s = .next t) :
    (s.sp.val = 16 ∧ t = { s with fault := some .stackOverflow }) ∨
      ∃ hsp : s.sp.val < 16, t =
        { s with stk := s.stk.set s.sp.val s.pc hsp, sp := ⟨s.sp.val + 1, by omega⟩, pc := addressOf nnn } := by
  change commit ((stackPush s.pc s).map fun u => { u with pc := addressOf nnn }) s = .next t at h
  by_cases hsp : s.sp.val = 16
  · rw [stackPush_full _ hsp] at h
    cases h
    exact .inl ⟨hsp, rfl⟩
  · have hlt : s.sp.val < 16 := by omega
    rw [stackPush_of_lt _ hlt] at h
    cases h
    exact .inr ⟨hlt, rfl⟩

theorem execRet_effect {s t : State} (h : exec .ret s = .next t) : Effect (mayWrite .ret s) s t := by
  obtain ⟨hsp, rfl⟩ | ⟨hsp, -, rfl⟩ := execRet_cases h
  · exact .of_fault (if_pos hsp)
  · have hpop : Effect (writesOf .ret s) s { s with sp := ⟨s.sp.val - 1, by omega⟩ } := .setSp (.inr rfl)
    exact .of_none (if_neg (Nat.ne_of_gt hsp)) (hpop.trans (.setPc (.inl rfl)))

theorem execCall_effect {nnn : BitVec 12} {s t : State} (h : exec (.call nnn) s = .next t) :
    Effect (mayWrite (.call nnn) s) s t := by
  obtain ⟨hsp, rfl⟩ | ⟨hsp, rfl⟩ := execCall_cases h
  · exact .of_fault (if_pos hsp)
  · have hslot : writesOf (.call nnn) s (.slot ⟨s.sp.val, hsp⟩) := .inr (.inr ⟨_, rfl, rfl⟩)
    exact .of_none (if_neg (Nat.ne_of_lt hsp))
      (((Effect.setSlot hslot).trans (.setSp (.inr (.inl rfl)))).trans (.setPc (.inl rfl)))

/-- The instructions that read a range of memory at I before they write anything (R58): the bytes are there, or the
instruction faults. -/
theorem read_effect {i : Instr} {n : Nat} {use : List Byte → State} {s t : State}
    (hfault : faultIn i s = if rangeFaults (s.ea 0) n then some .outOfBounds else none)
    (huse : Effect (writesOf i s) s (use (Memory.bytesFrom s.mem (s.ea 0) n)))
    (h : commit ((memReadRange s.mem (s.ea 0) n).map use) s = .next t) : Effect (mayWrite i s) s t := by
  unfold memReadRange at h
  split at h <;> rename_i hr <;> cases h
  · exact .of_fault (hfault.trans (if_pos hr))
  · exact .of_none (hfault.trans (if_neg hr)) huse

/-- The instructions that store bytes at I upward (R58): all of them, or the instruction faults. -/
theorem store_effect {i : Instr} {bs : List Byte} {s t : State}
    (hfault : faultIn i s = if rangeFaults (s.ea 0) bs.length then some .outOfBounds else none)
    (hbytes : ∀ k, k < bs.length → writesOf i s (.byte (s.ea k)))
    (h : commit (memWriteRange (s.ea 0) bs s) s = .next t) : Effect (mayWrite i s) s t := by
  unfold memWriteRange at h
  split at h <;> rename_i hr <;> cases h
  · exact .of_fault (hfault.trans (if_pos hr))
  · exact .of_none (hfault.trans (if_neg hr)) (.storeFrom hbytes)

theorem execLdVxMem_effect {x : Reg} {s t : State} (h : exec (.ldVxMem x) s = .next t) :
    Effect (mayWrite (.ldVxMem x) s) s t := by
  refine read_effect (n := x.val + 1) (by simp [faultIn, rangeFaults, State.ea])
    (.loadRegs fun r hr => ⟨r, ?_, rfl⟩) h
  rw [Memory.length_bytesFrom] at hr
  exact Nat.le_of_lt_succ hr

theorem execLdBVx_effect {x : Reg} {s t : State} (h : exec (.ldBVx x) s = .next t) :
    Effect (mayWrite (.ldBVx x) s) s t :=
  store_effect (bs := bcdDigits (s.reg x)) (by simp [faultIn, rangeFaults, State.ea]) (fun k hk => ⟨k, hk, rfl⟩) h

theorem execLdMemVx_effect {x : Reg} {s t : State} (h : exec (.ldMemVx x) s = .next t) :
    Effect (mayWrite (.ldMemVx x) s) s t := by
  refine store_effect (bs := s.regsUpTo x) (by simp [faultIn, rangeFaults, State.ea]) (fun k hk => ⟨k, ?_, rfl⟩) h
  rw [State.length_regsUpTo] at hk
  exact Nat.le_of_lt_succ hk

/-- A cell a sprite toggles is a cell it covers (R160, R162). -/
theorem spriteCovers_of_mem_rowPoints {s : State} {px py : Byte} {n : Nat} {c : Fin 64} {r : Fin 32}
    (h : (c, r) ∈ rowPoints px py 0 (Memory.bytesFrom s.mem (s.ea 0) n)) : SpriteCovers s px py n c r := by
  obtain ⟨row, hrow, col, hcol, hbit, hp⟩ := mem_rowPoints.mp h
  rw [Memory.length_bytesFrom] at hrow
  rw [Memory.getD_bytesFrom, if_pos hrow] at hbit
  obtain ⟨rfl, rfl⟩ := Prod.mk.inj hp
  exact ⟨row, hrow, col, hcol, hbit, rfl, by simp [rowOf]⟩

theorem drawSprite_effect (x y : Reg) (n : Fin 16) (s : State) :
    Effect (writesOf (.drw x y n) s) s (drawSprite x y s (Memory.bytesFrom s.mem (s.ea 0) n.val)) := by
  refine (Effect.setFb fun c r hcell => ?_).trans (.setReg (.inl rfl))
  have hlen : (Memory.bytesFrom s.mem (s.ea 0) n.val).length ≤ 32 := by
    rw [Memory.length_bytesFrom]; omega
  have hout : (c, r) ∉ rowPoints (s.reg x) (s.reg y) 0 (Memory.bytesFrom s.mem (s.ea 0) n.val) :=
    fun hmem => hcell (.inr ⟨c, r, spriteCovers_of_mem_rowPoints hmem, rfl⟩)
  rw [cell_drawRows _ _ hlen, decide_eq_false hout, Bool.xor_false, State.cell]

theorem execDrw_effect {x y : Reg} {n : Fin 16} {s t : State} (h : exec (.drw x y n) s = .next t) :
    Effect (mayWrite (.drw x y n) s) s t :=
  read_effect (n := n.val) (by simp [faultIn, rangeFaults, State.ea]) (drawSprite_effect x y n s) h

/-! ## Every instruction -/

theorem execLdVxK_effect {x : Reg} {s t : State} (h : exec (.ldVxK x) s = .next t) :
    Effect (mayWrite (.ldVxK x) s) s t := by
  change execLdVxK x s = .next t at h
  unfold execLdVxK at h
  cases hl : s.latch <;> rw [hl] at h <;> cases h
  · exact .refl
  · exact .setReg rfl

/-- What each instruction may change: the parts the rules list it as a writer of. -/
theorem exec_effect {i : Instr} {s t : State} (h : exec i s = .next t) : Effect (mayWrite i s) s t := by
  cases i with
  | cls => cases h; exact .setFb fun c r hcell => absurd ⟨c, r, rfl⟩ hcell
  | ret => exact execRet_effect h
  | call nnn => exact execCall_effect h
  | jp nnn | jpV0 nnn => cases h; exact .setPc rfl
  | seImm x kk | sneImm x kk => exact .of_skipIf rfl h
  | seReg x y | sneReg x y => exact .of_skipIf rfl h
  | skp x | sknp x => exact .of_skipIf rfl h
  | ldImm x kk | addImm x kk => cases h; exact .setReg rfl
  | ldReg x y | orReg x y | andReg x y | xorReg x y => cases h; exact .setReg rfl
  | addReg x y | sub x y | shr x y | subn x y | shl x y =>
    cases h; exact .setFlagThenReg (.inl rfl) (.inr rfl)
  | rnd x kk => cases h; exact (Effect.setReg (.inl rfl)).trans (.setDraws (.inr rfl))
  | drw x y n => exact execDrw_effect h
  | ldVxDt x => cases h; exact .setReg rfl
  | ldVxK x => exact execLdVxK_effect h
  | ldDtVx x => cases h; exact .setDt rfl
  | ldStVx x => cases h; exact .setSt rfl
  | ldI nnn => cases h; exact .setIndex rfl
  | addIVx x | ldFVx x => cases h; exact .setIndex rfl
  | ldBVx x => exact execLdBVx_effect h
  | ldMemVx x => exact execLdMemVx_effect h
  | ldVxMem x => exact execLdVxMem_effect h
  | nopClass0 w | nopClass5 w | nopClass8 w | nopClass9 w | nopClassE w | nopClassF w => cases h; exact .refl

/-- Settles O42: the frame of `exec_effect`. -/
theorem eachPartHasOnlyItsWriters : Obligations.EachPartHasOnlyItsWriters :=
  fun _ _ _ h => (exec_effect h).frame

/-! ## Parts with few writers -/

/-- A part that is not FAULT and has no writer in the instruction keeps its value. -/
theorem exec_same {i : Instr} {s t : State} (h : exec i s = .next t) {p : Part} (hp : p ≠ .fault)
    (hw : ¬ writesOf i s p) : p.same s t := by
  refine (exec_effect h).frame p fun hm => ?_
  cases hf : faultIn i s with
  | some f => exact hp ((mayWrite_of_fault hf p).mp hm)
  | none => exact hw ((mayWrite_of_none hf p).mp hm)

/-- No instruction writes LATCH (R34). -/
theorem not_writesOf_latch (i : Instr) (s : State) : ¬ writesOf i s .latch := by
  cases i <;> simp [writesOf]

/-- No instruction writes KEY (R33). -/
theorem not_writesOf_key (i : Instr) (s : State) (k : KeyId) : ¬ writesOf i s (.key k) := by
  cases i <;> simp [writesOf]

/-- The one writer of DT (R27). -/
theorem writesOf_dt {i : Instr} {s : State} (h : writesOf i s .dt) : ∃ x, i = .ldDtVx x := by
  cases i <;> simp [writesOf] at h ⊢

/-- The one writer of ST (R28). -/
theorem writesOf_st {i : Instr} {s : State} (h : writesOf i s .st) : ∃ x, i = .ldStVx x := by
  cases i <;> simp [writesOf] at h ⊢

/-- The one writer of a stack slot, and the slot it writes (R26). -/
theorem writesOf_slot {i : Instr} {s : State} {k : Fin 16} (h : writesOf i s (.slot k)) :
    k.val = s.sp.val ∧ ∃ nnn, i = .call nnn := by
  cases i <;> simp [writesOf] at h ⊢
  exact h

/-- Everything an instruction can do to the stack slots: CALL stores the PC it was given (R112). -/
theorem exec_slot {i : Instr} {s t : State} (h : exec i s = .next t) (k : Fin 16) :
    t.slot k = s.slot k ∨ t.slot k = s.pc := by
  by_cases hw : writesOf i s (.slot k)
  · obtain ⟨hk, nnn, rfl⟩ := writesOf_slot hw
    obtain ⟨-, rfl⟩ | ⟨hsp, rfl⟩ := execCall_cases h
    · exact .inl rfl
    · exact .inr ((get_set_slot s.stk _ hsp s.pc k).trans (if_pos hk))
  · exact .inl (exec_same h (p := .slot k) nofun hw)

/-- The values an instruction can give PC (R24): the one it had, two more by a skip, an address immediate plus a byte by a
jump or a call, a return address by RET. -/
inductive PcAfter (s : State) : Word16 → Prop
  | same : PcAfter s s.pc
  | skip : PcAfter s (s.pc + 2)
  | jump (nnn : BitVec 12) (b : Byte) : PcAfter s (addressOf nnn + zext16 b)
  | ret (k : Fin 16) : PcAfter s (s.slot k)

theorem PcAfter.of_skipIf {c : Bool} {s t : State} (h : skipIf c s = .next t) : PcAfter s t.pc := by
  cases h
  cases c
  · exact .same
  · exact .skip

theorem PcAfter.address (s : State) (nnn : BitVec 12) : PcAfter s (addressOf nnn) := by
  simpa [zext16] using PcAfter.jump (s := s) nnn 0

/-- Everything an instruction can do to PC. -/
theorem exec_pc {i : Instr} {s t : State} (h : exec i s = .next t) : PcAfter s t.pc := by
  by_cases hw : writesOf i s .pc
  · cases i with
    | ret =>
      obtain ⟨-, rfl⟩ | ⟨-, hlt, rfl⟩ := execRet_cases h
      · exact .same
      · exact .ret _
    | call nnn =>
      obtain ⟨-, rfl⟩ | ⟨hsp, rfl⟩ := execCall_cases h
      · exact .same
      · exact .address s nnn
    | jp nnn => cases h; exact .address s nnn
    | jpV0 nnn => cases h; exact .jump nnn _
    | seImm x kk | sneImm x kk => exact .of_skipIf h
    | seReg x y | sneReg x y => exact .of_skipIf h
    | skp x | sknp x => exact .of_skipIf h
    | _ => simp [writesOf] at hw
  · have hpc : t.pc = s.pc := exec_same h (p := .pc) nofun hw
    exact hpc ▸ .same

/-! ## The invariant -/

theorem toNat_add_two_le (w : Word16) : (w + 2).toNat ≤ w.toNat + 2 := Nat.mod_le _ _

/-- The bound of R24 on PC: from a PC of at most 0x1000, no instruction takes it past 0xFFF + 0xFF. -/
theorem PcAfter.le {s : State} {w : Word16} (h : PcAfter s w) (hpc : s.pc.toNat ≤ 0x1000)
    (hslot : ∀ k : Fin 16, (s.slot k).toNat ≤ 0x1000) : w.toNat ≤ 0x10FE := by
  cases h with
  | same => omega
  | skip => exact (toNat_add_two_le s.pc).trans (by omega)
  | jump nnn b =>
    have hn := nnn.isLt
    have hb := b.isLt
    rw [BitVec.toNat_add, addressOf, zext16, BitVec.toNat_setWidth, BitVec.toNat_setWidth]
    omega
  | ret k => exact Nat.le_trans (hslot k) (by decide)

/-- An instruction keeps the invariant where the advanced PC is at most 0x1000, as after every fetch (R24). -/
theorem Inv.after_exec {i : Instr} {s t : State} (hs : Inv s) (hpc : s.pc.toNat ≤ 0x1000) (h : exec i s = .next t) :
    Inv t where
  memory := (exec_effect h).wf hs.memory
  pc_le := (exec_pc h).le hpc hs.slot_le
  slot_le k := by
    obtain he | he := exec_slot h k <;> rw [he]
    · exact hs.slot_le k
    · exact hpc
  latch_down k hk := by
    have hlatch : t.latch = s.latch := exec_same h (p := .latch) nofun (not_writesOf_latch i s)
    have hkey : t.keyDown k = s.keyDown k := exec_same h (p := .key k) nofun (not_writesOf_key i s k)
    rw [hkey]
    exact hs.latch_down k (hlatch ▸ hk)

/-- Everything a STEP can do (R100, R101, R106). -/
theorem step_cases {s t : State} (h : step s = .next t) :
    (s.fault ≠ none ∧ t = s) ∨
      (s.fault = none ∧ ∃ f, fetchWord s = .error f ∧ t = { s with fault := some f }) ∨
      (s.fault = none ∧ ∃ w, fetchWord s = .ok w ∧ exec (decodeWord w) s.advance = .next t) := by
  unfold step at h
  cases hf : s.fault with
  | some f =>
    simp only [hf] at h
    cases h
    exact .inl ⟨nofun, rfl⟩
  | none =>
    simp only [hf] at h
    cases hw : fetchWord s with
    | error f =>
      simp only [hw] at h
      cases h
      exact .inr (.inl ⟨rfl, f, rfl, rfl⟩)
    | ok w =>
      simp only [hw] at h
      exact .inr (.inr ⟨rfl, w, rfl, h⟩)

/-- A fetch succeeds below 0x0FFF only (R54, R101). -/
theorem pc_lt_of_fetchWord {s : State} {w : Word16} (h : fetchWord s = .ok w) : s.pc.toNat + 1 < 4096 := by
  by_contra hge
  rw [fetchWord, memRead16_of_ge (Nat.le_of_not_lt hge)] at h
  cases h

theorem Inv.after_step {s t : State} (hs : Inv s) (h : step s = .next t) : Inv t := by
  obtain ⟨-, rfl⟩ | ⟨-, f, -, rfl⟩ | ⟨-, w, hw, h⟩ := step_cases h
  · exact hs
  · exact ⟨hs.memory, hs.pc_le, hs.slot_le, hs.latch_down⟩
  · have hlt := pc_lt_of_fetchWord hw
    have hpc : s.advance.pc.toNat ≤ 0x1000 := (toNat_add_two_le s.pc).trans (by omega)
    have hadv : Inv s.advance := ⟨hs.memory, Nat.le_trans hpc (by decide), hs.slot_le, hs.latch_down⟩
    exact hadv.after_exec hpc h

/-- Settles O43, by what a STEP can do: the fetch bounds the advanced PC, and `Inv.after_exec` does the rest. -/
theorem stepKeepsTheInvariant : Obligations.StepKeepsTheInvariant :=
  fun _ _ hs h => hs.after_step h

theorem inv_reset : Inv State.reset where
  memory := Memory.wf_reset
  pc_le := by decide
  slot_le k := by simp [State.slot, State.reset, Vector.get_eq_getElem]
  latch_down _ h := nomatch h

theorem inv_resetWith (font : Vector Byte Config.fontLen) : Inv (State.resetWith font) where
  memory := Memory.wf_storeFrom Memory.wf_reset 0 font.toList
  pc_le := inv_reset.pc_le
  slot_le := inv_reset.slot_le
  latch_down := inv_reset.latch_down

/-- Settles O45: storing the FONT keeps the canonical form, and nothing else of the invariant depends on it. -/
theorem resetHasTheInvariant : Obligations.ResetHasTheInvariant :=
  ⟨inv_reset, inv_resetWith⟩

theorem inv_envReset (font : Vector Byte Config.fontLen) (s : State) : Inv (envReset font s) :=
  have h := inv_resetWith font
  ⟨h.memory, h.pc_le, h.slot_le, h.latch_down⟩

/-- Everything a LOAD can do (R182, R183). -/
theorem envLoad_cases (rom : List Byte) (s : State) :
    (rom.length ≤ Config.romMax ∧
        envLoad rom s = ({ s with mem := Memory.storeFrom s.mem Config.romOrigin rom, pc := 0x200 }, .ok)) ∨
      (Config.romMax < rom.length ∧ envLoad rom s = (s, .programTooLarge)) := by
  by_cases h : rom.length ≤ Config.romMax
  · exact .inl ⟨h, if_pos h⟩
  · exact .inr ⟨Nat.lt_of_not_le h, if_neg h⟩

theorem Inv.after_load {s : State} (hs : Inv s) (rom : List Byte) : Inv (envLoad rom s).1 := by
  obtain ⟨-, h⟩ | ⟨-, h⟩ := envLoad_cases rom s <;> rw [h]
  · have horigin : (0x200 : Word16).toNat ≤ 0x10FE := by decide
    exact ⟨Memory.wf_storeFrom hs.memory _ rom, horigin, hs.slot_le, hs.latch_down⟩
  · exact hs

theorem Inv.after_tick {s : State} (hs : Inv s) : Inv (envTick s) :=
  ⟨hs.memory, hs.pc_le, hs.slot_le, hs.latch_down⟩

/-- The key KEY_DOWN latches is the key it puts down (R185). -/
theorem Inv.after_keyDown {s : State} (hs : Inv s) (k : KeyId) : Inv (envKeyDown k s) where
  memory := hs.memory
  pc_le := hs.pc_le
  slot_le := hs.slot_le
  latch_down q hq := by
    have he : k = q := Option.some.inj hq
    rw [keyDown_envKeyDown, if_pos he.symm]

/-- KEY_UP leaves the latch empty (R186). -/
theorem Inv.after_keyUp {s : State} (hs : Inv s) (k : KeyId) : Inv (envKeyUp k s) where
  memory := hs.memory
  pc_le := hs.pc_le
  slot_le := hs.slot_le
  latch_down _ h := nomatch h

/-! ## Schedules -/

/-- The operation STEP answers what `step` answers, and hands nothing back. -/
theorem step_of_operate {s t : State} {r : Response} (h : operate .step s = .next (t, r)) : step s = .next t := by
  unfold operate at h
  cases hs : step s <;> simp only [hs] at h <;> cases h
  rfl

theorem Inv.after_operate {op : Operation} {s t : State} {r : Response} (hs : Inv s) (h : operate op s = .next (t, r)) :
    Inv t := by
  cases op with
  | reset font => cases h; exact inv_envReset font s
  | load rom => cases h; exact hs.after_load rom
  | step => exact hs.after_step (step_of_operate h)
  | tick => cases h; exact hs.after_tick
  | keyDown k => cases h; exact hs.after_keyDown k
  | keyUp k => cases h; exact hs.after_keyUp k
  | readFb | readStatus => cases h; exact hs

/-- A schedule that ends ran its first operation and then the rest (R190). -/
theorem runOps_cons {op : Operation} {ops : List Operation} {s t : State} (h : runOps (op :: ops) s = .next t) :
    ∃ u r, operate op s = .next (u, r) ∧ runOps ops u = .next t := by
  rw [runOps] at h
  cases ho : operate op s with
  | next p => exact ⟨p.1, p.2, rfl, by simpa only [ho] using h⟩
  | fault f => simp only [ho] at h; cases h
  | refused f => simp only [ho] at h; cases h

theorem Inv.after_runOps {ops : List Operation} {s t : State} (hs : Inv s) (h : runOps ops s = .next t) : Inv t := by
  induction ops generalizing s with
  | nil => cases h; exact hs
  | cons op ops ih =>
    obtain ⟨u, r, ho, hrest⟩ := runOps_cons h
    exact ih (hs.after_operate ho) hrest

/-- Settles O44, by induction on the schedule. -/
theorem schedulesKeepTheInvariant : Obligations.SchedulesKeepTheInvariant :=
  fun _ _ _ hs h => hs.after_runOps h

/-! ## The timers -/

/-- A tick never raises a timer (R184). -/
theorem countDown_le (b : Byte) : (countDown b).toNat ≤ b.toNat := by
  unfold countDown
  split
  · next hpos =>
      have hone : 1 ≤ b := hpos
      rw [BitVec.toNat_sub_of_le hone]
      exact Nat.sub_le _ _
  · exact Nat.le_refl _

/-- No operation but STEP raises a timer (R27, R28). -/
theorem operate_timers_le {op : Operation} {s t : State} {r : Response} (h : operate op s = .next (t, r))
    (hop : op ≠ .step) : t.dt.toNat ≤ s.dt.toNat ∧ t.st.toNat ≤ s.st.toNat := by
  cases op with
  | reset font => cases h; exact ⟨Nat.zero_le _, Nat.zero_le _⟩
  | load rom =>
    cases h
    obtain ⟨-, h⟩ | ⟨-, h⟩ := envLoad_cases rom s <;> rw [h] <;> exact ⟨Nat.le_refl _, Nat.le_refl _⟩
  | step => exact absurd rfl hop
  | tick => cases h; exact ⟨countDown_le s.dt, countDown_le s.st⟩
  | keyDown k | keyUp k => cases h; exact ⟨Nat.le_refl _, Nat.le_refl _⟩
  | readFb | readStatus => cases h; exact ⟨Nat.le_refl _, Nat.le_refl _⟩

/-- A part other than PC and FAULT that the fetched instruction does not write keeps its value in a STEP. -/
theorem step_same {s t : State} (h : step s = .next t) {p : Part} (hpc : p ≠ .pc) (hf : p ≠ .fault)
    (hw : ∀ w, fetchWord s = .ok w → ¬ writesOf (decodeWord w) s.advance p) : p.same s t := by
  obtain ⟨-, rfl⟩ | ⟨-, f, -, rfl⟩ | ⟨-, w, hfetch, h⟩ := step_cases h
  · exact p.same_refl _
  · exact (Effect.setFault (writes := (· = .fault)) rfl).frame p hf
  · have hadv : p.same s s.advance := (Effect.setPc (writes := (· = .pc)) rfl).frame p hpc
    exact Part.same_trans hadv (exec_same h hf (hw w hfetch))

/-- Settles O46: the parts DT and ST have one writer each among the instructions, and a TICK only counts down. -/
theorem timersMoveOnlyAsListed : Obligations.TimersMoveOnlyAsListed := by
  intro op s t r h
  refine ⟨operate_timers_le h, ?_⟩
  rintro rfl
  have hstep := step_of_operate h
  refine ⟨fun hdt => step_same hstep (p := .dt) nofun nofun fun w hw hwr => ?_,
    fun hst => step_same hstep (p := .st) nofun nofun fun w hw hwr => ?_⟩
  · obtain ⟨x, hx⟩ := writesOf_dt hwr
    exact hdt w x hw hx
  · obtain ⟨x, hx⟩ := writesOf_st hwr
    exact hst w x hw hx

end Sys2Proof.Machine
end

section
/-! SUPPORT. The memory primitives, and what a fetch sees after memory was written (rules R52 to R55, R66). One rule reads
any byte after a range was stored, `Memory.byteAt_storeFrom`; the statements about a placed word, a storing instruction
and a LOAD are read off it. -/

namespace Sys2Proof.Machine

open Host (Outcome)

/-! ## The byte primitives (R52, R53) -/

theorem memRead8_of_lt {addr : Nat} (m : Memory) (h : addr < 4096) : memRead8 m addr = .ok (Memory.byteAt m addr) :=
  if_neg (Nat.not_le_of_lt h)

theorem memRead8_of_ge {addr : Nat} (m : Memory) (h : 4096 ≤ addr) : memRead8 m addr = .error .outOfBounds :=
  if_pos h

theorem memWrite8_of_lt {addr : Nat} (m : Memory) (b : Byte) (h : addr < 4096) :
    memWrite8 m addr b = .ok (Memory.store m addr b) :=
  if_neg (Nat.not_le_of_lt h)

theorem memWrite8_of_ge {addr : Nat} (m : Memory) (b : Byte) (h : 4096 ≤ addr) :
    memWrite8 m addr b = .error .outOfBounds :=
  if_pos h

/-- A read answers the same, fault included, where the byte is the same. -/
theorem memRead8_congr {m m' : Memory} {addr : Nat} (h : Memory.byteAt m' addr = Memory.byteAt m addr) :
    memRead8 m' addr = memRead8 m addr := by
  rw [memRead8, memRead8, h]

/-- Settles O5, by the law of one store (`Memory.byteAt_store`). -/
theorem byteWriteThenRead : Obligations.ByteWriteThenRead := by
  intro m addr b hm
  refine ⟨fun hlt => ⟨_, memWrite8_of_lt m b hlt, Memory.wf_store hm addr b, ?_, memRead8_of_lt m hlt, ?_⟩,
    fun hge => ⟨memWrite8_of_ge m b hge, memRead8_of_ge m hge⟩⟩
  · rw [memRead8_of_lt _ hlt, Memory.byteAt_store hm hlt, if_pos rfl]
  · intro q hq
    have hkept := Memory.byteAt_store_other m b hq
    exact ⟨memRead8_congr hkept, hkept⟩

/-! ## The word primitive (R54) -/

/-- The byte at the lower address is the high one (R54, R55). -/
theorem toNat_wordOfBytes (hi lo : Byte) : (wordOfBytes hi lo).toNat = hi.toNat * 256 + lo.toNat := by
  rw [wordOfBytes, BitVec.toNat_append, ← Nat.shiftLeft_add_eq_or_of_lt lo.isLt, Nat.shiftLeft_eq]

/-- Settles O6, by what `memRead16` answers below the bound and at it. -/
theorem wordReadIsBigEndian : Obligations.WordReadIsBigEndian :=
  fun _ _ => ⟨fun hlt => ⟨_, memRead16_of_lt hlt, toNat_wordOfBytes _ _⟩, memRead16_of_ge⟩

/-! ## The fetch -/

/-- A fetch up to 0x0FFE reads the two bytes at PC (R55, R100). -/
theorem fetchWord_of_le {s : State} (hpc : s.pc.toNat ≤ 0xFFE) :
    fetchWord s = .ok (wordOfBytes (s.byte s.pc.toNat) (s.byte (s.pc.toNat + 1))) :=
  memRead16_of_lt (Nat.lt_of_le_of_lt (Nat.succ_le_succ hpc) (by decide))

/-- A STEP whose fetch succeeds executes the fetched word at the advanced PC (R100). -/
theorem step_of_fetchWord {s : State} {op : Word16} (hf : s.fault = none) (hw : fetchWord s = .ok op) :
    step s = exec (decodeWord op) s.advance := by
  simp only [step, hf, hw]

/-- Reading any byte from the start of a stored range up: the stored byte, and past the range's end the one that stood
there. -/
theorem Memory.byteAt_storeFrom {m : Memory} (hm : Memory.wf m = true) {a : Nat} {bs : List Byte}
    (hr : a + bs.length ≤ 4096) (k : Nat) :
    Memory.byteAt (Memory.storeFrom m a bs) (a + k) = bs.getD k (Memory.byteAt m (a + k)) := by
  by_cases hk : k < bs.length
  · rw [Memory.byteAt_storeFrom_inside hm hr hk, List.getD_eq_getElem _ _ hk]
  · have hlen := Nat.le_of_not_lt hk
    rw [Memory.byteAt_storeFrom_outside m (.inr (Nat.add_le_add_left hlen a)), List.getD_eq_default _ _ hlen]

/-! ## A placed word -/

/-- The fetch reads back the word `withFetchWord` placed. -/
theorem fetchWord_withFetchWord {s : State} (hm : Memory.wf s.mem = true) (hpc : s.pc.toNat ≤ 0xFFE) (nbits w : Nat) :
    fetchWord (s.withFetchWord nbits w) = .ok (tableWord nbits w) := by
  have hr : s.pc.toNat + (bytesOfWord (tableWord nbits w)).length ≤ 4096 := Nat.add_le_add_right hpc 2
  have hbyte := Memory.byteAt_storeFrom hm hr
  have hhi : (s.withFetchWord nbits w).byte s.pc.toNat = (tableWord nbits w).extractLsb' 8 8 := hbyte 0
  have hlo : (s.withFetchWord nbits w).byte (s.pc.toNat + 1) = (tableWord nbits w).extractLsb' 0 8 := hbyte 1
  have hfetch := fetchWord_of_le (s := s.withFetchWord nbits w) hpc
  rwa [show (s.withFetchWord nbits w).pc = s.pc from rfl, hhi, hlo, wordOfBytes_bytesOfWord] at hfetch

theorem decodeTableWord_eq (nbits w : Nat) : decodeTableWord nbits w = some (decodeWord (tableWord nbits w)) :=
  congrArg (fun op => some (decodeWord op)) (wordOfBytes_bytesOfWord (tableWord nbits w))

/-- Settles O11: the fetch reads the placed word, and the decoder reads the same word from its bytes. -/
theorem placedWordRunsNext : Obligations.PlacedWordRunsNext :=
  fun _ nbits w hm hf hpc =>
    ⟨_, decodeTableWord_eq nbits w, step_of_fetchWord hf (fetchWord_withFetchWord hm hpc nbits w)⟩

/-! ## What a fetch sees after a store (R66) -/

section Store

variable {s : State} {bs : List Byte} {stored : Nat → Byte} (hm : Memory.wf s.mem = true)
  (hr : s.ea 0 + bs.length ≤ 4096) (hbs : ∀ k (hk : k < bs.length), bs[k] = stored k)

include hm hr hbs

/-- Every byte of memory after a store at I: one of the stored range, or one outside it. -/
theorem byteAfterStore_storeFrom (a : Nat) :
    ByteAfterStore s bs.length stored a (Memory.byteAt (Memory.storeFrom s.mem (s.ea 0) bs) a) := by
  refine ⟨fun k hk ha => ?_, fun hout => Memory.byteAt_storeFrom_outside _ ?_⟩
  · rw [ha, ← hbs k hk]
    exact Memory.byteAt_storeFrom_inside hm hr hk
  · by_contra hin
    have hle : s.ea 0 ≤ a := by omega
    exact hout (a - s.ea 0) (by omega) (Nat.add_sub_cancel' hle).symm

/-- The instructions that store bytes at I upward: in range they answer a state whose fetch sees the stored bytes. -/
theorem fetchWord_after_store (hpc : s.pc.toNat ≤ 0xFFE) :
    ∃ t w, commit (memWriteRange (s.ea 0) bs s) s = .next t ∧ fetchWord t = .ok w ∧
      WordAfterStore s bs.length stored w := by
  have hbyte := byteAfterStore_storeFrom hm hr hbs
  obtain ⟨-, hw⟩ | ⟨⟨-, hlt⟩, -⟩ := memWriteRange_cases (s.ea 0) bs s
  · rw [hw]
    exact ⟨_, _, rfl, fetchWord_of_le hpc, _, _, toNat_wordOfBytes _ _, hbyte _, hbyte _⟩
  · exact absurd hr (Nat.not_le_of_lt hlt)

end Store

/-- The hundreds, tens and units of a byte, digit by digit (R153). -/
theorem getElem_bcdDigits (b : Byte) (k : Nat) (hk : k < (bcdDigits b).length) :
    (bcdDigits b)[k] = BitVec.ofNat 8 (if k = 0 then b.toNat / 100
      else if k = 1 then b.toNat / 10 % 10 else b.toNat % 10) := by
  match k, hk with
  | 0, _ | 1, _ | 2, _ => rfl

/-- Byte k of what `Fx55` stores is V[k], the register's number written as a natural number (R154). -/
theorem getElem_regsUpTo_ofNat (s : State) (x : Reg) (k : Nat) (hk : k < (s.regsUpTo x).length) :
    (s.regsUpTo x)[k] = s.reg (Fin.ofNat 16 k) := by
  have hlt : k < 16 := by rw [State.length_regsUpTo] at hk; omega
  have hreg : Fin.ofNat 16 k = ⟨k, hlt⟩ := Fin.ext (Nat.mod_eq_of_lt hlt)
  rw [hreg]
  exact s.getElem_regsUpTo x ⟨k, hlt⟩ hk

/-- A fetch after a LOAD reads the ROM's first two bytes, a byte the ROM does not have being the one that stood there
(R66, R182). -/
theorem fetchWord_envLoad {rom : List Byte} {s : State} (hm : Memory.wf s.mem = true) (hlen : rom.length ≤ 3584) :
    fetchWord (envLoad rom s).1 = .ok (wordOfBytes (rom.getD 0 (s.byte 0x200)) (rom.getD 1 (s.byte 0x201))) := by
  obtain ⟨-, hload⟩ | ⟨hgt, -⟩ := envLoad_cases rom s
  · have hbyte := Memory.byteAt_storeFrom hm (a := 0x200) (bs := rom) (Nat.add_le_add_left hlen 0x200)
    have horigin : (0x200 : Word16).toNat ≤ 0xFFE := by decide
    rw [hload]
    exact (fetchWord_of_le horigin).trans (congrArg Except.ok (congrArg₂ wordOfBytes (hbyte 0) (hbyte 1)))
  · exact absurd hlen (Nat.not_le_of_lt hgt)

/-- Settles O33: the three writers of memory, each by the rule of the bytes it stores. -/
theorem storeIsSeenByTheNextFetch : Obligations.StoreIsSeenByTheNextFetch := by
  refine ⟨fun x s hm hpc => ⟨fun hea => ?_, fun hea => ?_⟩, fun rom s hm hlen => ?_⟩
  · exact fetchWord_after_store (bs := bcdDigits (s.reg x)) hm hea (getElem_bcdDigits (s.reg x)) hpc
  · have hlen := s.length_regsUpTo x
    rw [← hlen]
    exact fetchWord_after_store hm (hlen ▸ hea) (getElem_regsUpTo_ofNat s x) hpc
  · exact ⟨_, fetchWord_envLoad hm hlen, toNat_wordOfBytes _ _⟩

end Sys2Proof.Machine
end

section
/-! SUPPORT. The encoding (rules R80 to R88): decoding and encoding undo each other, and the rows of the opcode map are
selected by mask and match. A word is read through its family nibble and its selector: the nibble n, the byte kk or all
twelve bits nnn. -/

namespace Sys2Proof

/-! ## Words with a known selector (R82) -/

theorem fieldNNN_low4_eq_iff {op : Word16} {b : BitVec 4} :
    (fieldNNN op).extractLsb' 0 4 = b ↔ fieldN op = ⟨b.toNat, b.isLt⟩ := by
  rw [slice_fieldNNN op 0 4 (by decide), ← BitVec.toNat_inj, Fin.ext_iff]
  rfl

theorem fieldN_formatR_eq (f : BitVec 4) (x y : Reg) (b : BitVec 4) :
    fieldN (formatR f x y b) = ⟨b.toNat, b.isLt⟩ :=
  Fin.ext (fieldN_formatR f x y b)

section KnownSelector

variable {op : Word16} {f : BitVec 4} (hf : (nibbleAt op 12).val = f.toNat)

include hf

theorem formatA_of_fieldNNN {w : BitVec 12} (hw : fieldNNN op = w) : formatA f w = op :=
  hw ▸ formatA_fields op f hf

theorem formatK_of_fieldKK {k : Byte} (hk : fieldKK op = k) : formatK f (fieldX op) k = op :=
  hk ▸ formatK_fields op f hf

theorem formatR_of_fieldN {b : BitVec 4} (hn : fieldN op = ⟨b.toNat, b.isLt⟩) :
    formatR f (fieldX op) (fieldY op) b = op := by
  have hword := formatR_fields op f hf
  rwa [hn, BitVec.ofNat_toNat, BitVec.setWidth_eq] at hword

end KnownSelector

/-! ## The no-op words of a family (R86)

A family decodes a word to its no-op class exactly when `Instr.wellFormed` admits the word's twelve bits there: the
decoder's tests and the lists of assigned selectors name the same selectors. -/

section NopWords

variable (op : Word16)

theorem decodeFamily0_eq_nop_iff :
    decodeFamily0 op = .nopClass0 (fieldNNN op) ↔ (Instr.nopClass0 (fieldNNN op)).wellFormed = true := by
  simp [decodeFamily0, Instr.wellFormed, ite_eq_iff]

theorem decodeFamily5_eq_nop_iff :
    decodeFamily5 op = .nopClass5 (fieldNNN op) ↔ (Instr.nopClass5 (fieldNNN op)).wellFormed = true := by
  simp [decodeFamily5, Instr.wellFormed, fieldNNN_low4_eq_iff]

theorem decodeFamily8_eq_nop_iff :
    decodeFamily8 op = .nopClass8 (fieldNNN op) ↔ (Instr.nopClass8 (fieldNNN op)).wellFormed = true := by
  simp [decodeFamily8, Instr.wellFormed, aluSubOps, fieldNNN_low4_eq_iff, ite_eq_iff]

theorem decodeFamily9_eq_nop_iff :
    decodeFamily9 op = .nopClass9 (fieldNNN op) ↔ (Instr.nopClass9 (fieldNNN op)).wellFormed = true := by
  simp [decodeFamily9, Instr.wellFormed, fieldNNN_low4_eq_iff]

theorem decodeFamilyE_eq_nop_iff :
    decodeFamilyE op = .nopClassE (fieldNNN op) ↔ (Instr.nopClassE (fieldNNN op)).wellFormed = true := by
  simp [decodeFamilyE, Instr.wellFormed, keyFunctions, fieldNNN_low8, ite_eq_iff]

theorem decodeFamilyF_eq_nop_iff :
    decodeFamilyF op = .nopClassF (fieldNNN op) ↔ (Instr.nopClassF (fieldNNN op)).wellFormed = true := by
  simp [decodeFamilyF, Instr.wellFormed, miscFunctions, fieldNNN_low8, ite_eq_iff]

end NopWords

/-! ## Decoding what was encoded -/

/-- An instruction row is decoded by reading the fields of its format back; a no-op word by the family's own
characterisation of its no-op words. -/
theorem decodeWord_encode {i : Instr} (h : i.wellFormed = true) : decodeWord (encode i) = i := by
  cases i with
  | cls | ret => decide
  | jp nnn | call nnn | ldI nnn | jpV0 nnn => simp [encode, decodeWord]
  | seImm x kk | sneImm x kk | ldImm x kk | addImm x kk | rnd x kk => simp [encode, decodeWord]
  | drw x y n => simp [encode, decodeWord, fieldN_formatR_eq]
  | seReg x y | sneReg x y => simp [encode, decodeWord, decodeFamily5, decodeFamily9, fieldN_formatR_eq]
  | ldReg x y | orReg x y | andReg x y | xorReg x y | addReg x y | sub x y | shr x y | subn x y | shl x y =>
    simp [encode, decodeWord, decodeFamily8, fieldN_formatR_eq]
  | skp x | sknp x => simp [encode, decodeWord, decodeFamilyE]
  | ldVxDt x | ldVxK x | ldDtVx x | ldStVx x | addIVx x | ldFVx x | ldBVx x | ldMemVx x | ldVxMem x =>
    simp [encode, decodeWord, decodeFamilyF]
  | nopClass0 w =>
    have hnop := decodeFamily0_eq_nop_iff (formatA 0x0#4 w)
    simpa [encode, decodeWord, h] using hnop
  | nopClass5 w =>
    have hnop := decodeFamily5_eq_nop_iff (formatA 0x5#4 w)
    simpa [encode, decodeWord, h] using hnop
  | nopClass8 w =>
    have hnop := decodeFamily8_eq_nop_iff (formatA 0x8#4 w)
    simpa [encode, decodeWord, h] using hnop
  | nopClass9 w =>
    have hnop := decodeFamily9_eq_nop_iff (formatA 0x9#4 w)
    simpa [encode, decodeWord, h] using hnop
  | nopClassE w =>
    have hnop := decodeFamilyE_eq_nop_iff (formatA 0xE#4 w)
    simpa [encode, decodeWord, h] using hnop
  | nopClassF w =>
    have hnop := decodeFamilyF_eq_nop_iff (formatA 0xF#4 w)
    simpa [encode, decodeWord, h] using hnop

/-- Decoding bytes decodes the word the first two make (R55, R80). -/
theorem decode_bytesOfWord_append (op : Word16) (rest : List Byte) :
    decode (bytesOfWord op ++ rest) = .ok (decodeWord op, rest) :=
  congrArg (fun w => Except.ok (decodeWord w, rest)) (wordOfBytes_bytesOfWord op)

/-- Settles O2, by `decodeWord_encode`; the two bytes make the word again. -/
theorem decodeOfEncodeIsTheInstruction : Obligations.DecodeOfEncodeIsTheInstruction := by
  intro i h
  refine ⟨decodeWord_encode h, fun rest => ?_⟩
  rw [encodeBytes, decode_bytesOfWord_append, decodeWord_encode h]

/-! ## Encoding what was decoded -/

/-- The instruction is well-formed and `op` is its word. -/
def IsWordOf (op : Word16) (i : Instr) : Prop := i.wellFormed = true ∧ encode i = op

section Families

variable {op : Word16}

theorem decodeFamily0_isWordOf (hf : (nibbleAt op 12).val = 0x0) : IsWordOf op (decodeFamily0 op) := by
  have hnop := decodeFamily0_eq_nop_iff op
  unfold decodeFamily0 at hnop ⊢
  split_ifs at hnop ⊢ with hcls hret
  · exact ⟨rfl, formatA_of_fieldNNN (f := 0x0#4) hf hcls⟩
  · exact ⟨rfl, formatA_of_fieldNNN (f := 0x0#4) hf hret⟩
  · exact ⟨hnop.mp rfl, formatA_fields op _ hf⟩

theorem decodeFamily5_isWordOf (hf : (nibbleAt op 12).val = 0x5) : IsWordOf op (decodeFamily5 op) := by
  have hnop := decodeFamily5_eq_nop_iff op
  unfold decodeFamily5 at hnop ⊢
  split_ifs at hnop ⊢ with hn
  · exact ⟨rfl, formatR_of_fieldN hf hn⟩
  · exact ⟨hnop.mp rfl, formatA_fields op _ hf⟩

theorem decodeFamily8_isWordOf (hf : (nibbleAt op 12).val = 0x8) : IsWordOf op (decodeFamily8 op) := by
  unfold decodeFamily8
  iterate 9
    split
    · exact ⟨rfl, formatR_of_fieldN hf ‹_›⟩
  have hnop : decodeFamily8 op = .nopClass8 (fieldNNN op) := by simp only [decodeFamily8, *, if_false]
  exact ⟨(decodeFamily8_eq_nop_iff op).mp hnop, formatA_fields op _ hf⟩

theorem decodeFamily9_isWordOf (hf : (nibbleAt op 12).val = 0x9) : IsWordOf op (decodeFamily9 op) := by
  have hnop := decodeFamily9_eq_nop_iff op
  unfold decodeFamily9 at hnop ⊢
  split_ifs at hnop ⊢ with hn
  · exact ⟨rfl, formatR_of_fieldN hf hn⟩
  · exact ⟨hnop.mp rfl, formatA_fields op _ hf⟩

theorem decodeFamilyE_isWordOf (hf : (nibbleAt op 12).val = 0xE) : IsWordOf op (decodeFamilyE op) := by
  have hnop := decodeFamilyE_eq_nop_iff op
  unfold decodeFamilyE at hnop ⊢
  split_ifs at hnop ⊢ with hskp hsknp
  · exact ⟨rfl, formatK_of_fieldKK hf hskp⟩
  · exact ⟨rfl, formatK_of_fieldKK hf hsknp⟩
  · exact ⟨hnop.mp rfl, formatA_fields op _ hf⟩

theorem decodeFamilyF_isWordOf (hf : (nibbleAt op 12).val = 0xF) : IsWordOf op (decodeFamilyF op) := by
  unfold decodeFamilyF
  iterate 9
    split
    · exact ⟨rfl, formatK_of_fieldKK hf ‹_›⟩
  have hnop : decodeFamilyF op = .nopClassF (fieldNNN op) := by simp only [decodeFamilyF, *, if_false]
  exact ⟨(decodeFamilyF_eq_nop_iff op).mp hnop, formatA_fields op _ hf⟩

end Families

/-- Family by family: one format's fields put the word together again, or the family's own decoder does. -/
theorem decodeWord_isWordOf (op : Word16) : IsWordOf op (decodeWord op) := by
  unfold decodeWord
  split
  next hf => exact decodeFamily0_isWordOf hf
  next hf => exact ⟨rfl, formatA_fields op _ hf⟩
  next hf => exact ⟨rfl, formatA_fields op _ hf⟩
  next hf => exact ⟨rfl, formatK_fields op _ hf⟩
  next hf => exact ⟨rfl, formatK_fields op _ hf⟩
  next hf => exact decodeFamily5_isWordOf hf
  next hf => exact ⟨rfl, formatK_fields op _ hf⟩
  next hf => exact ⟨rfl, formatK_fields op _ hf⟩
  next hf => exact decodeFamily8_isWordOf hf
  next hf => exact decodeFamily9_isWordOf hf
  next hf => exact ⟨rfl, formatA_fields op _ hf⟩
  next hf => exact ⟨rfl, formatA_fields op _ hf⟩
  next hf => exact ⟨rfl, formatK_fields op _ hf⟩
  next hf => exact ⟨rfl, formatR_fields op _ hf⟩
  next hf => exact decodeFamilyE_isWordOf hf
  next =>
    have hlt := (nibbleAt op 12).isLt
    have hf : (nibbleAt op 12).val = 0xF := by
      simp only [imp_false] at *
      omega
    exact decodeFamilyF_isWordOf hf

/-- Settles O3. -/
theorem everyWordIsOneInstruction : Obligations.EveryWordIsOneInstruction :=
  decodeWord_isWordOf

/-! ## The rows of the opcode map (R84 to R86) -/

open Laws.TableRow in
theorem encode_and_mask (i : Instr) : encode i &&& i.mask = i.matchBits :=
  Instr.casesOn (motive := Statement) i cls ret jp call seImm sneImm seReg ldImm addImm ldReg orReg andReg xorReg
    addReg sub shr subn shl sneReg ldI jpV0 rnd drw skp sknp ldVxDt ldVxK ldDtVx ldStVx addIVx ldFVx ldBVx ldMemVx
    ldVxMem nopClass0 nopClass5 nopClass8 nopClass9 nopClassE nopClassF

/-- Every word meets the row it decodes to. -/
theorem and_mask_decodeWord (w : Word16) : w &&& (decodeWord w).mask = (decodeWord w).matchBits := by
  have hrow := encode_and_mask (decodeWord w)
  rwa [(decodeWord_isWordOf w).2] at hrow

/-- A slice that the mask keeps whole is fixed by the match. -/
theorem slice_of_and {w m b : Word16} {lo len : Nat} (h : w &&& m = b)
    (hm : m.extractLsb' lo len = BitVec.allOnes len) : w.extractLsb' lo len = b.extractLsb' lo len := by
  rw [← h, BitVec.extractLsb'_and, hm, BitVec.and_allOnes]

/-- Every row fixes the family nibble. -/
theorem mask_family (i : Instr) : i.mask.extractLsb' 12 4 = BitVec.allOnes 4 := by
  cases i <;> simp [Instr.mask]

theorem family_of_match {w : Word16} {i : Instr} (h : w &&& i.mask = i.matchBits) :
    nibbleAt w 12 = nibbleAt i.matchBits 12 :=
  Fin.ext (congrArg BitVec.toNat (slice_of_and h (mask_family i)))

theorem fieldN_of_match {w b : Word16} (h : w &&& 0xF00F = b) : fieldN w = fieldN b :=
  Fin.ext (congrArg BitVec.toNat (slice_of_and h rfl))

theorem fieldKK_of_match {w b : Word16} (h : w &&& 0xF0FF = b) : fieldKK w = fieldKK b :=
  slice_of_and h rfl

/-- `j` is an instruction of the row of `i`. -/
def SameRow (i j : Instr) : Prop := j.isNopClass = false ∧ j.mask = i.mask ∧ j.matchBits = i.matchBits

/-- A row's mask and match fix what the decoder tests: the family, and the selector of a row that has one. -/
theorem decodeWord_sameRow {w : Word16} {i : Instr} (hi : i.isNopClass = false) (h : w &&& i.mask = i.matchBits) :
    SameRow i (decodeWord w) := by
  have hf := family_of_match h
  cases i
  all_goals
    dsimp only [Instr.mask, Instr.matchBits] at h hf
    rw [decodeWord, hf]
  case cls | ret =>
    obtain rfl : w = _ := BitVec.and_allOnes.symm.trans h
    exact ⟨rfl, rfl, rfl⟩
  case jp | call | seImm | sneImm | ldImm | addImm | ldI | jpV0 | rnd | drw => exact ⟨rfl, rfl, rfl⟩
  case seReg | sneReg | ldReg | orReg | andReg | xorReg | addReg | sub | shr | subn | shl =>
    have hn := fieldN_of_match h
    simp only [decodeFamily5, decodeFamily8, decodeFamily9, hn]
    exact ⟨rfl, rfl, rfl⟩
  case skp | sknp | ldVxDt | ldVxK | ldDtVx | ldStVx | addIVx | ldFVx | ldBVx | ldMemVx | ldVxMem =>
    have hk := fieldKK_of_match h
    simp only [decodeFamilyE, decodeFamilyF, hk]
    exact ⟨rfl, rfl, rfl⟩
  case nopClass0 | nopClass5 | nopClass8 | nopClass9 | nopClassE | nopClassF => cases hi

theorem match_iff_sameRow {w : Word16} {i : Instr} (hi : i.isNopClass = false) :
    w &&& i.mask = i.matchBits ↔ SameRow i (decodeWord w) := by
  refine ⟨decodeWord_sameRow hi, fun ⟨_, hmask, hmatch⟩ => ?_⟩
  rw [← hmask, ← hmatch]
  exact and_mask_decodeWord w

theorem decodeWord_isNopClass_iff {w : Word16} :
    (decodeWord w).isNopClass = true ↔ ∀ i : Instr, i.isNopClass = false → w &&& i.mask ≠ i.matchBits := by
  refine ⟨fun hnop i hi h => ?_, fun hnone => ?_⟩
  · obtain ⟨hrow, -⟩ := decodeWord_sameRow hi h
    exact absurd hnop (Bool.eq_false_iff.mp hrow)
  · by_contra hrow
    exact hnone _ (Bool.eq_false_iff.mpr hrow) (and_mask_decodeWord w)

/-- Settles O4, by what a row's mask and match fix, and that a word meets the row it decodes to. -/
theorem rowsSelectedByMaskAndMatch : Obligations.RowsSelectedByMaskAndMatch :=
  ⟨fun _ _ hi => match_iff_sameRow hi, fun _ => decodeWord_isNopClass_iff⟩

/-- Settles O1: ten closed words, evaluated. -/
theorem sampleWordsDecode : Obligations.SampleWordsDecode := by
  unfold Obligations.SampleWordsDecode
  decide

end Sys2Proof
end

section
/-! SUPPORT. Every run answers a next state (rules R87, R103): an instruction's fault is latched by `commit`, a fetch's
by `raiseFault`, and no arm refuses. -/

namespace Sys2Proof.Machine

theorem commit_next (r : Except Fault State) (s : State) : ∃ t, commit r s = .next t := by
  obtain ⟨t, -, h⟩ | ⟨f, -, h⟩ := commit_cases r s
  · exact ⟨t, h⟩
  · exact ⟨_, h⟩

/-- The instructions that can fault end in `commit`; every other arm writes its next state out. -/
theorem exec_next (i : Instr) (s : State) : ∃ t, exec i s = .next t := by
  cases i with
  | ret | call nnn => exact commit_next _ s
  | drw x y n => exact commit_next _ s
  | ldBVx x | ldMemVx x | ldVxMem x => exact commit_next _ s
  | _ => exact ⟨_, rfl⟩

theorem step_next (s : State) : ∃ t, step s = .next t := by
  unfold step
  split
  · exact ⟨s, rfl⟩
  · split
    · exact ⟨_, rfl⟩
    · exact exec_next _ _

theorem operate_next (op : Operation) (s : State) : ∃ t r, operate op s = .next (t, r) := by
  cases op with
  | step =>
    obtain ⟨t, ht⟩ := step_next s
    exact ⟨t, .nothing, by rw [operate, ht]⟩
  | _ => exact ⟨_, _, rfl⟩

theorem runOps_next (ops : List Operation) (s : State) : ∃ t, runOps ops s = .next t := by
  induction ops generalizing s with
  | nil => exact ⟨s, rfl⟩
  | cons op ops ih =>
    obtain ⟨t, r, ht⟩ := operate_next op s
    rw [runOps, ht]
    exact ih t

/-- Settles O10: instruction by instruction, then STEP, then by induction on the schedule. -/
theorem everyRunAnswersNext : Obligations.EveryRunAnswersNext :=
  ⟨exec_next, step_next, runOps_next⟩

end Sys2Proof.Machine
end

section
/-! SUPPORT. STEP by its three outcomes (rules R100, R101, R106), the no-op class (R104), and the halt: what a faulted core
keeps through every schedule without a RESET (R106, R210). -/

namespace Sys2Proof.Machine

open Host (Outcome)

/-! ## STEP, outcome by outcome -/

/-- A STEP does nothing while FAULT holds a cause (R106). -/
theorem step_of_fault {s : State} {f : Fault} (hf : s.fault = some f) : step s = .next s := by
  simp only [step, hf]

/-- A STEP whose fetch faults latches the cause and leaves PC (R101). -/
theorem step_of_fetchWord_error {s : State} {f : Fault} (hf : s.fault = none) (hw : fetchWord s = .error f) :
    step s = .next { s with fault := some f } := by
  simp only [step, hf, hw, raiseFault]

/-- A fetch from 0x0FFF or above has its second byte out of range (R54, R101). -/
theorem fetchWord_of_ge {s : State} (hpc : 0xFFF ≤ s.pc.toNat) : fetchWord s = .error .outOfBounds :=
  memRead16_of_ge (Nat.succ_le_succ hpc)

/-- Settles O7: the fetch reads the two bytes at PC, and `decode` reads the word they form. -/
theorem stepRunsTheDecodedInstruction : Obligations.StepRunsTheDecodedInstruction := by
  intro s i hf hpc hdecode
  have hi : decodeWord (wordOfBytes (s.byte s.pc.toNat) (s.byte (s.pc.toNat + 1))) = i :=
    congrArg Prod.fst (Except.ok.inj hdecode)
  rw [← hi]
  exact step_of_fetchWord hf (fetchWord_of_le hpc)

/-- Settles O8, by the fetch fault at the top of memory. -/
theorem fetchFaultKeepsEverythingElse : Obligations.FetchFaultKeepsEverythingElse :=
  fun _ hf hpc => step_of_fetchWord_error hf (fetchWord_of_ge hpc)

/-- Settles O9, by the first line of STEP. -/
theorem faultedStepChangesNothing : Obligations.FaultedStepChangesNothing :=
  fun _ _ hf => step_of_fault hf

/-! ## The no-op class -/

/-- The six no-op-class instructions have no effect; no other instruction is of the class (R86, R104). -/
theorem exec_of_isNopClass {i : Instr} (hi : i.isNopClass = true) (s : State) : exec i s = .next s := by
  cases i with
  | nopClass0 w | nopClass5 w | nopClass8 w => rfl
  | nopClass9 w | nopClassE w | nopClassF w => rfl
  | _ => exact absurd hi Bool.false_ne_true

/-- Settles O39: the advance of the prologue is all a STEP does where the instruction has no effect. -/
theorem nopClassOnlyAdvancesPc : Obligations.NopClassOnlyAdvancesPc := by
  refine ⟨fun w s => ?_, fun s op hf hw hnop => ?_⟩
  · exact ⟨exec_of_isNopClass rfl s, exec_of_isNopClass rfl s, exec_of_isNopClass rfl s,
      exec_of_isNopClass rfl s, exec_of_isNopClass rfl s, exec_of_isNopClass rfl s⟩
  · calc step s
      _ = exec (decodeWord op) s.advance := step_of_fetchWord hf hw
      _ = .next s.advance := exec_of_isNopClass hnop s.advance

/-! ## The halt -/

/-- FAULT, V, I, SP, STK and FB are the same: the elements of state that only STEP and RESET write. -/
structure SameCore (s t : State) : Prop where
  fault : t.fault = s.fault
  v : t.v = s.v
  i : t.i = s.i
  sp : t.sp = s.sp
  stk : t.stk = s.stk
  fb : t.fb = s.fb

namespace SameCore

theorem refl (s : State) : SameCore s s := ⟨rfl, rfl, rfl, rfl, rfl, rfl⟩

theorem trans {s t u : State} (hst : SameCore s t) (htu : SameCore t u) : SameCore s u where
  fault := htu.fault.trans hst.fault
  v := htu.v.trans hst.v
  i := htu.i.trans hst.i
  sp := htu.sp.trans hst.sp
  stk := htu.stk.trans hst.stk
  fb := htu.fb.trans hst.fb

/-- A LOAD writes MEM and PC only (R182; D17). -/
theorem after_load (rom : List Byte) (s : State) : SameCore s (envLoad rom s).1 := by
  obtain ⟨-, h⟩ | ⟨-, h⟩ := envLoad_cases rom s <;> rw [h]
  · exact ⟨rfl, rfl, rfl, rfl, rfl, rfl⟩
  · exact refl s

/-- A faulted core does nothing in a STEP, and the other operations but RESET write none of these elements (R181, D21). -/
theorem of_operate {op : Operation} {s t : State} {r : Response} {f : Fault} (hf : s.fault = some f)
    (hop : ∀ font, op ≠ .reset font) (h : operate op s = .next (t, r)) : SameCore s t := by
  cases op with
  | reset font => exact absurd rfl (hop font)
  | load rom => cases h; exact after_load rom s
  | step =>
    have hstay : Outcome.next s = .next t := (step_of_fault hf).symm.trans (step_of_operate h)
    cases hstay
    exact refl _
  | tick => cases h; exact ⟨rfl, rfl, rfl, rfl, rfl, rfl⟩
  | keyDown k | keyUp k => cases h; exact ⟨rfl, rfl, rfl, rfl, rfl, rfl⟩
  | readFb | readStatus => cases h; exact refl _

/-- The halt lasts: each operation keeps the cause, so the rest of the schedule starts from a faulted core again. -/
theorem of_runOps {ops : List Operation} {s t : State} {f : Fault} (hf : s.fault = some f)
    (hops : ∀ font, Operation.reset font ∉ ops) (h : runOps ops s = .next t) : SameCore s t := by
  induction ops generalizing s with
  | nil => cases h; exact refl _
  | cons op ops ih =>
    obtain ⟨u, r, ho, hrest⟩ := runOps_cons h
    have hop : ∀ font, op ≠ .reset font := fun font he => hops font (he ▸ List.mem_cons_self)
    have hu : SameCore s u := of_operate hf hop ho
    have htail : ∀ font, Operation.reset font ∉ ops := fun font hm => hops font (List.mem_cons_of_mem op hm)
    exact hu.trans (ih (hu.fault.trans hf) htail hrest)

end SameCore

/-- Settles O41: every schedule ends in a next state, and without a RESET a faulted core keeps these elements. -/
theorem faultStaysUntilReset : Obligations.FaultStaysUntilReset := by
  intro ops s f hf hops
  obtain ⟨t, ht⟩ := runOps_next ops s
  have hsame := SameCore.of_runOps hf hops ht
  exact ⟨t, ht, hsame.fault.trans hf, hsame.v, hsame.i, hsame.sp, hsame.stk, hsame.fb⟩

end Sys2Proof.Machine
end

section
/-! SUPPORT. Control transfer (spec/41_flow.md, rules R110 to R113): JP, JP V0, CALL with room and RET with an address
held, each by the one state it answers; the frames are read off `exec_effect`. -/

namespace Sys2Proof.Machine

/-- The frame of an instruction that does not fault: nothing outside its listed parts changes. -/
theorem exec_frame {i : Instr} {writes : Part → Prop} {s t : State} (h : exec i s = .next t)
    (hf : faultIn i s = none) (hw : ∀ p, writesOf i s p → writes p) : UnchangedOutside writes s t :=
  fun p hp => (exec_effect h).frame p fun hm => hp (hw p ((mayWrite_of_none hf p).mp hm))

/-! ## Addresses -/

theorem toNat_addressOf (nnn : BitVec 12) : (addressOf nnn).toNat = nnn.toNat :=
  BitVec.toNat_setWidth_of_le (by decide)

theorem toNat_zext16 (b : Byte) : (zext16 b).toNat = b.toNat :=
  BitVec.toNat_setWidth_of_le (by decide)

/-- An address immediate plus a byte fits 16 bits (R113). -/
theorem toNat_addressOf_add_zext16 (nnn : BitVec 12) (b : Byte) :
    (addressOf nnn + zext16 b).toNat = nnn.toNat + b.toNat := by
  have hn := nnn.isLt
  have hb := b.isLt
  rw [BitVec.toNat_add, toNat_addressOf, toNat_zext16]
  exact Nat.mod_eq_of_lt (by omega)

/-! ## Jumps -/

theorem exec_jp (nnn : BitVec 12) (s : State) : exec (.jp nnn) s = .next { s with pc := addressOf nnn } := rfl

theorem exec_jpV0 (nnn : BitVec 12) (s : State) :
    exec (.jpV0 nnn) s = .next { s with pc := addressOf nnn + zext16 (s.reg 0) } := rfl

/-- A jump to itself undoes the advance of the prologue (R100, R111). -/
theorem step_of_jumpsToItself {s : State} (hf : s.fault = none) (hj : JumpsToItself s) : step s = .next s := by
  obtain ⟨nnn, hpc, op, hw, hd⟩ := hj
  calc step s
    _ = exec (decodeWord op) s.advance := step_of_fetchWord hf hw
    _ = .next { s.advance with pc := addressOf nnn } := by rw [hd, exec_jp]
    _ = .next s := by rw [← hpc]; rfl

/-- A state whose step answers itself is where every run from it stays. -/
theorem run_of_step_self {M : Host.Core} {s : M.State} (h : M.step s = .next s) (k : Nat) : M.run k s = .next s := by
  induction k with
  | zero => rfl
  | succ k ih => simpa only [Host.Core.run, h] using ih

/-- Settles O12: one STEP ends in the state it began in, and the rest is induction on their number. -/
theorem jumpToItselfChangesNoState : Obligations.JumpToItselfChangesNoState :=
  fun _ k hf hj => run_of_step_self (M := core) (step_of_jumpsToItself hf hj) k

/-! ## The return stack -/

/-- CALL with `k` addresses held: the advanced PC goes to slot `k` (R26, R112). -/
theorem exec_call_of_sp {s : State} {k : Fin 16} (nnn : BitVec 12) (hk : s.sp.val = k.val) :
    exec (.call nnn) s = .next { s with stk := s.stk.set k.val s.pc, sp := k.succ, pc := addressOf nnn } := by
  obtain ⟨t, ht⟩ := exec_next (.call nnn) s
  obtain ⟨hfull, -⟩ | ⟨hroom, rfl⟩ := execCall_cases ht
  · omega
  · simp only [hk] at ht
    exact ht

/-- RET with `k + 1` addresses held: PC receives slot `k` (R26, R110). -/
theorem exec_ret_of_sp {s : State} {k : Fin 16} (hk : s.sp.val = k.val + 1) :
    exec .ret s = .next { s with sp := k.castSucc, pc := s.slot k } := by
  obtain ⟨t, ht⟩ := exec_next .ret s
  obtain ⟨hempty, -⟩ | ⟨hheld, hslot, rfl⟩ := execRet_cases ht
  · omega
  · simp only [hk] at ht
    exact ht

/-- Settles O15, by `exec_call_of_sp`; the frame is CALL's listed parts, the slot named by SP. -/
theorem callPushesReturnAddress : Obligations.CallPushesReturnAddress := by
  intro nnn s k hk
  have hcall := exec_call_of_sp nnn hk
  have hroom : faultIn (.call nnn) s = none := if_neg (by omega)
  refine ⟨_, hcall, (get_set_slot s.stk k.val k.isLt s.pc k).trans (if_pos rfl), congrArg (· + 1) hk.symm,
    toNat_addressOf nnn, exec_frame hcall hroom ?_⟩
  rintro p (hpc | hsp | ⟨j, hj, hslot⟩)
  · exact .inl hpc
  · exact .inr (.inl hsp)
  · obtain rfl : j = k := Fin.ext (hj.trans hk)
    exact .inr (.inr hslot)

/-- Settles O16, by `exec_ret_of_sp`; RET writes no slot. -/
theorem returnPopsIntoPc : Obligations.ReturnPopsIntoPc := by
  intro s k hk
  have hret := exec_ret_of_sp hk
  have hheld : faultIn .ret s = none := if_neg (by omega)
  exact ⟨_, hret, rfl, rfl, exec_frame hret hheld fun _ hw => hw⟩

/-- Settles O17: the slot CALL pushed into (O15) is the one RET pops (O16). -/
theorem returnResumesAfterCall : Obligations.ReturnResumesAfterCall := by
  intro nnn s hroom
  obtain ⟨t, hcall, hpushed, hdepth, -⟩ := callPushesReturnAddress nnn s ⟨s.sp.val, hroom⟩ rfl
  refine ⟨t, hcall, fun u hsp hstk => ?_⟩
  obtain ⟨v, hret, hvsp, hvpc, -⟩ := returnPopsIntoPc u ⟨s.sp.val, hroom⟩ (hsp ▸ hdepth)
  have hslot : u.slot ⟨s.sp.val, hroom⟩ = t.slot ⟨s.sp.val, hroom⟩ := congrArg (Vector.get · _) hstk
  exact ⟨v, hret, hvpc.trans (hslot.trans hpushed), Fin.ext hvsp⟩

/-- Settles O13, by `exec_jp`. -/
theorem jumpSetsPc : Obligations.JumpSetsPc :=
  fun nnn s => ⟨_, exec_jp nnn s, toNat_addressOf nnn, exec_frame (exec_jp nnn s) rfl fun _ hw => hw⟩

/-- Settles O14: the sum does not wrap. -/
theorem jumpV0AddsV0 : Obligations.JumpV0AddsV0 :=
  fun nnn s => ⟨_, exec_jpV0 nnn s, toNat_addressOf_add_zext16 nnn (s.reg 0),
    exec_frame (exec_jpV0 nnn s) rfl fun _ hw => hw⟩

end Sys2Proof.Machine
end

section
/-! SUPPORT. The conditional skips (spec/42_skip.md, rules R120 to R127): each comes with its opposite, so one lemma about
the skip action on a condition and on its negation serves the three pairs. -/

namespace Sys2Proof.Machine

/-- The skip action on a test that decides `P`: two more on PC if `P` holds, and PC alone (R120). -/
theorem skipIf_of_iff {c : Bool} {P : Prop} [Decidable P] (hc : c = true ↔ P) (s : State) :
    ∃ t, skipIf c s = .next t ∧ t.pc = (if P then s.pc + 2 else s.pc) ∧ UnchangedOutside (· = .pc) s t :=
  ⟨_, rfl, (apply_ite State.pc (c = true) s.advance s).trans (if_congr hc rfl rfl),
    (Effect.of_skipIf (writes := (· = .pc)) rfl rfl).frame⟩

/-- A skip and its opposite: exactly one of the two moves PC on (R121 to R126). -/
theorem skipIf_and_opposite {c : Bool} {P : Prop} [Decidable P] (hc : c = true ↔ P) (s : State) :
    (∃ t, skipIf c s = .next t ∧ t.pc = (if P then s.pc + 2 else s.pc) ∧ UnchangedOutside (· = .pc) s t) ∧
      ∃ t, skipIf (!c) s = .next t ∧ t.pc = (if P then s.pc else s.pc + 2) ∧ UnchangedOutside (· = .pc) s t := by
  have hnot : (!c) = true ↔ ¬P := by rw [← hc, Bool.not_eq_true', Bool.not_eq_true]
  exact ⟨skipIf_of_iff hc s, by simpa only [ite_not] using skipIf_of_iff hnot s⟩

/-- The key a byte names is its value modulo 16 (R127). -/
theorem val_keyOf (b : Byte) : (keyOf b).val = b.toNat % 16 :=
  BitVec.extractLsb'_toNat 0 4 b

/-- Settles O18: the test is the equality of Vx and kk. -/
theorem skipsOnImmediate : Obligations.SkipsOnImmediate :=
  fun _ _ s => skipIf_and_opposite beq_iff_eq s

/-- Settles O19: the test is the equality of Vx and Vy. -/
theorem skipsOnRegisters : Obligations.SkipsOnRegisters :=
  fun _ _ s => skipIf_and_opposite beq_iff_eq s

/-- Settles O20: the key tested is `keyOf` of Vx, whose number is Vx modulo 16. -/
theorem skipsOnKeys : Obligations.SkipsOnKeys := by
  intro x s k hk
  obtain rfl : k = keyOf (s.reg x) := Fin.ext (hk.trans (val_keyOf _).symm)
  exact skipIf_and_opposite Iff.rfl s

end Sys2Proof.Machine
end

section
/-! SUPPORT. Register load, arithmetic and logic (spec/43_alu.md, rules R130 to R142). Every instruction here answers one
register write or a flag write and then one (R141); a lemma about each shape gives the result and the frame, and a lemma
about bytes gives the result as a number. -/

namespace Sys2Proof.Machine

/-! ## Bytes as numbers -/

/-- A difference modulo 256 (R137, R139). -/
theorem toNat_byte_sub (a b : Byte) : (a - b).toNat = (a.toNat + 256 - b.toNat) % 256 :=
  (BitVec.toNat_sub' a b).trans (congrArg (· % 256) (Nat.add_sub_assoc b.isLt.le _).symm)

theorem toNat_byte_shiftRight_one (a : Byte) : (a >>> 1).toNat = a.toNat / 2 :=
  BitVec.toNat_ushiftRight a 1

theorem toNat_byte_shiftLeft_one (a : Byte) : (a <<< 1).toNat = 2 * a.toNat % 256 := by
  rw [BitVec.toNat_shiftLeft, Nat.shiftLeft_eq, Nat.mul_comm]

/-! ## The flags (R22) -/

theorem flagByte_decide (P : Prop) [Decidable P] : flagByte (decide P) = if P then 1 else 0 :=
  if_congr decide_eq_true_iff rfl rfl

theorem toNat_flagByte (c : Bool) : (flagByte c).toNat = c.toNat := by
  cases c <;> rfl

/-- The bit `8xy6` shifts out (R138). -/
theorem toNat_flagByte_lowBitFlag (a : Byte) : (flagByte (lowBitFlag a)).toNat = a.toNat % 2 := by
  rw [toNat_flagByte, lowBitFlag, BitVec.getLsbD, Nat.toNat_testBit, Nat.pow_zero, Nat.div_one]

/-- The bit `8xyE` shifts out (R140). -/
theorem toNat_flagByte_highBitFlag (a : Byte) : (flagByte (highBitFlag a)).toNat = a.toNat / 128 := by
  have ha : a.toNat / 128 < 2 := Nat.div_lt_of_lt_mul a.isLt
  rw [toNat_flagByte]
  exact (Nat.toNat_testBit a.toNat 7).trans (Nat.mod_eq_of_lt ha)

/-! ## One register written -/

/-- An instruction that answers one register write: the value is in Vx and nothing else changes. -/
theorem result_of_setReg {i : Instr} {x : Reg} {b : Byte} {s : State} (h : exec i s = .next (s.setReg x b)) :
    ∃ t, exec i s = .next t ∧ t.reg x = b ∧ UnchangedOutside (· = .reg x) s t :=
  ⟨_, h, State.reg_setReg_same s x b, (Effect.setReg (writes := (· = .reg x)) rfl).frame⟩

/-- Settles O21: the five instructions answer one register write. -/
theorem loadAndLogicResults : Obligations.LoadAndLogicResults :=
  fun _ _ _ _ =>
    ⟨result_of_setReg rfl, result_of_setReg rfl, result_of_setReg rfl, result_of_setReg rfl, result_of_setReg rfl⟩

/-- Settles O22: the one register written receives the sum of two bytes. -/
theorem addImmediateWraps : Obligations.AddImmediateWraps := by
  intro x kk s
  obtain ⟨t, hrun, hsum, hframe⟩ : ∃ t, exec (.addImm x kk) s = .next t ∧ t.reg x = s.reg x + kk ∧
      UnchangedOutside (· = .reg x) s t := result_of_setReg rfl
  exact ⟨t, hrun, hsum ▸ BitVec.toNat_add _ _, hframe⟩

/-! ## A flag and a result written -/

/-- The instruction completes with the result `n` in Vx and a byte as `flag` says in VF, and nothing else changes: what
R136 to R140 say of each flag writer. -/
def ResultAndFlag (i : Instr) (x : Reg) (n : Nat) (flag : Byte → Prop) (s : State) : Prop :=
  ∃ t, exec i s = .next t ∧ (t.reg x).toNat = n ∧ flag (t.reg 15) ∧
    UnchangedOutside (fun p => p = .reg x ∨ p = .reg 15) s t

section FlagWriters

variable {i : Instr} {x y : Reg} {c : Bool} {b : Byte} {n : Nat} {flag : Byte → Prop} {s : State}

/-- With x not F the result does not touch the flag written before it. -/
theorem resultAndFlag_of_flagThenResult (hx : x ≠ 15) (h : exec i s = .next (flagThenResult x c b s))
    (hb : b.toNat = n) (hc : flag (flagByte c)) : ResultAndFlag i x n flag s := by
  have hresult : (flagThenResult x c b s).reg x = b := (reg_flagThenResult x c b s x).trans (if_pos rfl)
  have hflag : (flagThenResult x c b s).reg 15 = flagByte c :=
    (reg_flagThenResult x c b s 15).trans ((if_neg hx.symm).trans (if_pos rfl))
  exact ⟨_, h, (congrArg BitVec.toNat hresult).trans hb, hflag.symm ▸ hc, (Effect.setFlagThenReg (.inl rfl) (.inr rfl)).frame⟩

/-- With x = F the result replaces the flag written before it (R141). -/
theorem result_of_flagThenResult_regF (h : exec i s = .next (flagThenResult 15 c b s)) (hb : b.toNat = n) :
    ∃ t, exec i s = .next t ∧ (t.reg 15).toNat = n ∧ UnchangedOutside (· = .reg 15) s t := by
  have hresult : (flagThenResult 15 c b s).reg 15 = b := (reg_flagThenResult 15 c b s 15).trans (if_pos rfl)
  exact ⟨_, h, (congrArg BitVec.toNat hresult).trans hb,
    (Effect.setFlagThenReg (writes := (· = .reg 15)) rfl rfl).frame⟩

/-- `8xy4` with x not F, y = F included (R136, R141). -/
theorem exec_addReg_of_ne (y : Reg) (s : State) (hx : x ≠ 15) :
    ResultAndFlag (.addReg x y) x (((s.reg x).toNat + (s.reg y).toNat) % 256)
      (· = if (s.reg x).toNat + (s.reg y).toNat > 255 then 1 else 0) s :=
  resultAndFlag_of_flagThenResult hx rfl (BitVec.toNat_add _ _) (flagByte_decide _)

/-- `8xy5` with x not F, y = F included (R137, R141). -/
theorem exec_sub_of_ne (y : Reg) (s : State) (hx : x ≠ 15) :
    ResultAndFlag (.sub x y) x (((s.reg x).toNat + 256 - (s.reg y).toNat) % 256)
      (· = if (s.reg x).toNat > (s.reg y).toNat then 1 else 0) s :=
  resultAndFlag_of_flagThenResult hx rfl (toNat_byte_sub _ _) (flagByte_decide _)

/-- `8xy7` with x not F, y = F included (R139, R141). -/
theorem exec_subn_of_ne (y : Reg) (s : State) (hx : x ≠ 15) :
    ResultAndFlag (.subn x y) x (((s.reg y).toNat + 256 - (s.reg x).toNat) % 256)
      (· = if (s.reg y).toNat > (s.reg x).toNat then 1 else 0) s :=
  resultAndFlag_of_flagThenResult hx rfl (toNat_byte_sub _ _) (flagByte_decide _)

/-- `8xy6` with x not F (R138). -/
theorem exec_shr_of_ne (y : Reg) (s : State) (hx : x ≠ 15) :
    ResultAndFlag (.shr x y) x ((s.reg x).toNat / 2) (·.toNat = (s.reg x).toNat % 2) s :=
  resultAndFlag_of_flagThenResult hx rfl (toNat_byte_shiftRight_one _) (toNat_flagByte_lowBitFlag _)

/-- `8xyE` with x not F (R140). -/
theorem exec_shl_of_ne (y : Reg) (s : State) (hx : x ≠ 15) :
    ResultAndFlag (.shl x y) x (2 * (s.reg x).toNat % 256) (·.toNat = (s.reg x).toNat / 128) s :=
  resultAndFlag_of_flagThenResult hx rfl (toNat_byte_shiftLeft_one _) (toNat_flagByte_highBitFlag _)

end FlagWriters

/-- Settles O23; that y is not F is not needed. -/
theorem addSubtractResultsAndFlags : Obligations.AddSubtractResultsAndFlags :=
  fun _ y s hx _ => ⟨exec_addReg_of_ne y s hx, exec_sub_of_ne y s hx, exec_subn_of_ne y s hx⟩

/-- Settles O24: the operand of both shifts is Vx, whatever y is. -/
theorem shiftResultsAndFlags : Obligations.ShiftResultsAndFlags :=
  fun _ y s hx => ⟨exec_shr_of_ne y s hx, exec_shl_of_ne y s hx⟩

/-- Settles O25: with x = F the result is written last, and with y = F the operand is read first. -/
theorem vfAsOperandOfFlagWriters : Obligations.VfAsOperandOfFlagWriters := by
  refine ⟨fun y s => ?_, fun x s hx => ?_⟩
  · exact ⟨result_of_flagThenResult_regF rfl (BitVec.toNat_add _ _),
      result_of_flagThenResult_regF rfl (toNat_byte_sub _ _),
      result_of_flagThenResult_regF rfl (toNat_byte_sub _ _),
      result_of_flagThenResult_regF rfl (toNat_byte_shiftRight_one _),
      result_of_flagThenResult_regF rfl (toNat_byte_shiftLeft_one _)⟩
  · exact ⟨exec_addReg_of_ne 15 s hx, exec_sub_of_ne 15 s hx, exec_subn_of_ne 15 s hx⟩

/-! ## The random byte -/

theorem exec_rnd (x : Reg) (kk : Byte) (s : State) :
    exec (.rnd x kk) s =
      .next { s.setReg x (Config.rndByte s.rndDraws &&& kk) with rndDraws := s.rndDraws + 1 } := rfl

theorem and_and_not_self (b kk : Byte) : b &&& kk &&& ~~~kk = 0 := by
  rw [BitVec.and_assoc, BitVec.and_not_self]
  exact BitVec.and_zero

/-- Settles O26, by `exec_rnd`: what is left of the draw are bits of kk. -/
theorem randomByteIsMasked : Obligations.RandomByteIsMasked := by
  intro x kk s
  have hrun := exec_rnd x kk s
  have hx := State.reg_setReg_same s x (Config.rndByte s.rndDraws &&& kk)
  refine ⟨_, hrun, hx, ?_, ?_, rfl, exec_frame hrun rfl fun _ hw => hw⟩
  · exact (congrArg (· &&& ~~~kk) hx).trans (and_and_not_self _ _)
  · rintro rfl
    exact hx.trans BitVec.and_zero

end Sys2Proof.Machine
end

section
/-! SUPPORT. The index register and memory transfer (spec/44_index_memory.md, rules R150 to R156). The two instructions
that store bytes at I share one rule for a store in range, LD Vx, [I] has its own; the frames are read off `exec_effect`. -/

namespace Sys2Proof.Machine

/-! ## The index register -/

/-- The address of a glyph fits 16 bits whatever byte names it (R152). -/
theorem toNat_zext16_mul_glyphLen (b : Byte) : (zext16 b * BitVec.ofNat 16 Config.glyphLen).toNat = b.toNat * 5 := by
  have hb := b.isLt
  have hlen : (BitVec.ofNat 16 Config.glyphLen).toNat = 5 := rfl
  rw [BitVec.toNat_mul, toNat_zext16, hlen]
  exact Nat.mod_eq_of_lt (by omega)

theorem toNat_add_zext16 (w : Word16) (b : Byte) : (w + zext16 b).toNat = (w.toNat + b.toNat) % 65536 := by
  rw [BitVec.toNat_add, toNat_zext16]

/-- An instruction that answers one write of I: the word is in I and nothing else changes. -/
theorem result_of_setIndex {i : Instr} {w : Word16} {n : Nat} {s : State} (h : exec i s = .next { s with i := w })
    (hw : w.toNat = n) : ∃ t, exec i s = .next t ∧ t.i.toNat = n ∧ UnchangedOutside (· = .index) s t :=
  ⟨_, h, hw, (Effect.setIndex (writes := (· = .index)) rfl).frame⟩

/-- Settles O27: neither the address immediate nor five times a byte wraps. -/
theorem indexLoadResults : Obligations.IndexLoadResults :=
  fun nnn x s => ⟨result_of_setIndex rfl (toNat_addressOf nnn),
    result_of_setIndex rfl (toNat_zext16_mul_glyphLen (s.reg x))⟩

/-- Settles O28: the sum is one of 16-bit words. -/
theorem addToIndexIsUnmasked : Obligations.AddToIndexIsUnmasked :=
  fun x s => result_of_setIndex rfl (toNat_add_zext16 s.i (s.reg x))

/-! ## Storing at I -/

/-- The instructions that store bytes at I upward: in range they complete with byte k at I + k (R57, R58). -/
theorem byte_after_store {s : State} {bs : List Byte} (hm : Memory.wf s.mem = true)
    (hr : s.ea 0 + bs.length ≤ 4096) :
    ∃ t, commit (memWriteRange (s.ea 0) bs s) s = .next t ∧ ∀ k (hk : k < bs.length), t.byte (s.ea k) = bs[k] := by
  obtain ⟨-, hw⟩ | ⟨⟨-, hlt⟩, -⟩ := memWriteRange_cases (s.ea 0) bs s
  · rw [hw]
    exact ⟨_, rfl, fun _ hk => Memory.byteAt_storeFrom_inside hm hr hk⟩
  · exact absurd hr (Nat.not_le_of_lt hlt)

/-- A number up to a byte's value fits a byte: each decimal digit of the byte does. -/
theorem toNat_ofNat_of_le_byte {b : Byte} {n : Nat} (h : n ≤ b.toNat) : (BitVec.ofNat 8 n).toNat = n :=
  (BitVec.toNat_ofNat n 8).trans (Nat.mod_eq_of_lt (Nat.lt_of_le_of_lt h b.isLt))

/-- Settles O29: the three stored bytes are the digits of Vx. -/
theorem bcdStoresThreeDigits : Obligations.BcdStoresThreeDigits := by
  intro x s hm hea
  obtain ⟨t, hrun, hbyte⟩ := byte_after_store (bs := bcdDigits (s.reg x)) hm hea
  change exec (.ldBVx x) s = .next t at hrun
  have hf : faultIn (.ldBVx x) s = none := if_neg (Nat.not_le_of_lt hea)
  have hdigit {k n : Nat} (hk : k < 3) (hn : (bcdDigits (s.reg x))[k] = BitVec.ofNat 8 n) (hle : n ≤ (s.reg x).toNat) :
      (t.byte (s.ea k)).toNat = n := by
    rw [hbyte k hk, hn, toNat_ofNat_of_le_byte hle]
  exact ⟨t, hrun, hdigit (by decide) rfl (Nat.div_le_self _ _),
    hdigit (by decide) rfl ((Nat.mod_le _ _).trans (Nat.div_le_self _ _)),
    hdigit (by decide) rfl (Nat.mod_le _ _), exec_frame hrun hf fun _ hw => hw⟩

/-- Settles O30: byte k of what is stored is Vk. -/
theorem registerStoreWritesV0ToVx : Obligations.RegisterStoreWritesV0ToVx := by
  intro x s hm hea
  have hlen := s.length_regsUpTo x
  obtain ⟨t, hrun, hbyte⟩ := byte_after_store (bs := s.regsUpTo x) hm (hlen ▸ hea)
  change exec (.ldMemVx x) s = .next t at hrun
  have hf : faultIn (.ldMemVx x) s = none := if_neg (Nat.not_le_of_lt hea)
  refine ⟨t, hrun, fun k hk => ?_, exec_frame hrun hf fun _ hw => hw⟩
  have hin : k.val < (s.regsUpTo x).length := hlen ▸ Nat.lt_succ_of_le hk
  exact (hbyte k.val hin).trans (s.getElem_regsUpTo x k hin)

/-! ## Loading from I -/

/-- LD Vx, [I] in range: V0 to Vx receive the bytes at I upward (R156). -/
theorem exec_ldVxMem_of_lt {x : Reg} {s : State} (hea : s.ea x.val < 4096) :
    exec (.ldVxMem x) s = .next (s.loadRegs (Memory.bytesFrom s.mem (s.ea 0) (x.val + 1))) := by
  change commit ((memReadRange s.mem (s.ea 0) (x.val + 1)).map s.loadRegs) s = _
  obtain ⟨-, hr⟩ | ⟨⟨-, hlt⟩, -⟩ := memReadRange_cases s.mem (s.ea 0) (x.val + 1)
  · rw [hr]
    rfl
  · exact absurd hea (Nat.not_lt_of_le (Nat.le_of_lt_succ hlt))

/-- Settles O31, by `exec_ldVxMem_of_lt`: byte k of a range read is the one at I + k. -/
theorem registerLoadReadsV0ToVx : Obligations.RegisterLoadReadsV0ToVx := by
  intro x s hea
  have hrun := exec_ldVxMem_of_lt hea
  have hf : faultIn (.ldVxMem x) s = none := if_neg (Nat.not_le_of_lt hea)
  refine ⟨_, hrun, fun k hk => ?_, exec_frame hrun hf fun _ hw => hw⟩
  rw [State.reg_loadRegs, Memory.getD_bytesFrom, if_pos (Nat.lt_succ_of_le hk)]
  rfl

/-- Settles O32: the load (O31) reads Vk from the address the store (O30) wrote it to. -/
theorem loadAfterStoreRestoresRegisters : Obligations.LoadAfterStoreRestoresRegisters := by
  intro x s hm hea
  obtain ⟨t, hstore, hstored, -⟩ := registerStoreWritesV0ToVx x s hm hea
  refine ⟨t, hstore, fun u hi hmem => ?_⟩
  have hsame (k : Nat) : u.ea k = s.ea k := congrArg (·.toNat + k) hi
  obtain ⟨w, hload, hloaded, -⟩ := registerLoadReadsV0ToVx x u (hsame x.val ▸ hea)
  refine ⟨w, hload, fun k hk => ?_⟩
  calc w.reg k = u.byte (u.ea k.val) := hloaded k hk
    _ = t.byte (s.ea k.val) := congrArg₂ Memory.byteAt hmem (hsame k.val)
    _ = s.reg k := hstored k hk

end Sys2Proof.Machine
end

section
/-! SUPPORT. The display instructions (spec/45_display.md, rules R160 to R164). A draw answers one state; in it a cell
is toggled exactly if the sprite covers it, so a second draw of the same sprite undoes the first. -/

namespace Sys2Proof.Machine

/-- Settles O34; the frame is read off `exec_effect`. -/
theorem clearTurnsEveryCellOff : Obligations.ClearTurnsEveryCellOff :=
  fun s => ⟨{ s with fb := Framebuffer.blank }, rfl, Framebuffer.cell_blank,
    exec_frame (i := .cls) rfl rfl fun _ hw => hw⟩

/-! ## The sprite -/

/-- The cells a sprite read from I toggles are the cells it covers (R160, R162, R164). -/
theorem mem_rowPoints_iff_spriteCovers {s : State} {px py : Byte} {n : Nat} {c : Fin 64} {r : Fin 32} :
    (c, r) ∈ rowPoints px py 0 (Memory.bytesFrom s.mem (s.ea 0) n) ↔ SpriteCovers s px py n c r := by
  refine ⟨spriteCovers_of_mem_rowPoints, ?_⟩
  rintro ⟨row, hrow, col, hcol, hbit, hc, hr⟩
  refine mem_rowPoints.mpr ⟨row, (Memory.length_bytesFrom ..).symm ▸ hrow, col, hcol, ?_, ?_⟩
  · rwa [Memory.getD_bytesFrom, if_pos hrow]
  · rw [Nat.zero_add]
    exact Prod.ext (Fin.ext hc) (Fin.ext hr)

/-- The cells a sprite covers are fixed by memory and I. -/
theorem spriteCovers_congr {s u : State} (hmem : u.mem = s.mem) (hi : u.i = s.i) :
    SpriteCovers u = SpriteCovers s := by
  unfold SpriteCovers State.byte State.ea
  rw [hmem, hi]

/-- A sprite has fewer rows than the screen, as `cell_drawRows` and `collision_drawRows` need. -/
theorem length_sprite_le (s : State) (n : Fin 16) : (Memory.bytesFrom s.mem (s.ea 0) n.val).length ≤ 32 := by
  rw [Memory.length_bytesFrom]
  omega

/-! ## One draw -/

theorem cell_drawSprite_of_covers {x y : Reg} {n : Fin 16} {s : State} {c : Fin 64} {r : Fin 32}
    (h : SpriteCovers s (s.reg x) (s.reg y) n.val c r) :
    (drawSprite x y s (Memory.bytesFrom s.mem (s.ea 0) n.val)).cell c r = !s.cell c r := by
  refine (cell_drawRows _ _ (length_sprite_le s n) _ c r).trans ?_
  rw [decide_eq_true (mem_rowPoints_iff_spriteCovers.mpr h), Bool.xor_true]
  rfl

/-- A draw collides exactly if the sprite covers a cell that was lit (R162). -/
theorem collision_drawSprite {x y : Reg} {n : Fin 16} {s : State} :
    (drawRows (s.reg x) (s.reg y) 0 (Memory.bytesFrom s.mem (s.ea 0) n.val) (s.fb, false)).2 = true ↔
      ∃ c r, SpriteCovers s (s.reg x) (s.reg y) n.val c r ∧ s.cell c r = true := by
  rw [collision_drawRows _ _ (length_sprite_le s n), Prod.exists]
  simp only [mem_rowPoints_iff_spriteCovers, Bool.false_eq_true, false_or]
  rfl

/-- VF after a draw is the collision (R162), with x = F or y = F too. -/
theorem reg15_drawSprite (x y : Reg) (s : State) (bs : List Byte) :
    (drawSprite x y s bs).reg 15 = flagByte (drawRows (s.reg x) (s.reg y) 0 bs (s.fb, false)).2 :=
  (reg_drawSprite x y s bs 15).trans (if_pos rfl)

/-- DRW of no rows, or with its last row in memory, draws the sprite (R58, R162). -/
theorem exec_drw_of_inRange {x y : Reg} {n : Fin 16} {s : State} (h : n.val = 0 ∨ s.ea (n.val - 1) < 4096) :
    exec (.drw x y n) s = .next (drawSprite x y s (Memory.bytesFrom s.mem (s.ea 0) n.val)) := by
  change commit ((memReadRange s.mem (s.ea 0) n.val).map (drawSprite x y s)) s = _
  obtain ⟨-, hread⟩ | ⟨⟨hpos, hlt⟩, -⟩ := memReadRange_cases s.mem (s.ea 0) n.val
  · rw [hread]
    rfl
  · simp only [State.ea, Config.memSize] at h hlt
    omega

/-- Settles O35; that no other cell and no other part changes is the frame of `drawSprite_effect`. -/
theorem drawTogglesCoveredCells : Obligations.DrawTogglesCoveredCells := by
  intro x y n s hr
  have hframe := (drawSprite_effect x y n s).frame
  have hflag := reg15_drawSprite x y s (Memory.bytesFrom s.mem (s.ea 0) n.val)
  refine ⟨_, exec_drw_of_inRange hr, fun _ _ => cell_drawSprite_of_covers, fun c r hout => ?_,
    fun hlit => ?_, fun hdark => ?_, fun p hp => hframe p fun hw => hp ?_⟩
  · refine hframe (.cell c r) ?_
    rintro (hp | ⟨_, _, hcov, hp⟩) <;> cases hp
    exact hout hcov
  · rw [hflag, collision_drawSprite.mpr hlit]
    rfl
  · rw [hflag, Bool.eq_false_iff.mpr fun hc => hdark (collision_drawSprite.mp hc)]
    rfl
  · exact hw.imp_right fun ⟨c, r, _, he⟩ => ⟨c, r, he⟩

/-! ## Two draws -/

/-- Settles O36, by O35 twice: both draws cover the same cells, so each cell is toggled twice or left alone twice. -/
theorem drawingTwiceRestoresTheScreen : Obligations.DrawingTwiceRestoresTheScreen := by
  intro x y n s hr
  obtain ⟨t, hfirst, htog, hkept, -⟩ := drawTogglesCoveredCells x y n s hr
  refine ⟨t, hfirst, fun u hfb hmem hi hx hy => ?_⟩
  have hru : n.val = 0 ∨ u.ea (n.val - 1) < 4096 := by rwa [State.ea, hi]
  obtain ⟨w, hsecond, htog', hkept', hvf, -⟩ := drawTogglesCoveredCells x y n u hru
  rw [spriteCovers_congr hmem hi, hx, hy] at htog' hkept' hvf
  have hu (c r) : u.cell c r = t.cell c r := congrArg (Framebuffer.cell · c r) hfb
  refine ⟨w, hsecond, Framebuffer.ext_cell fun c r => ?_, fun ⟨c, r, hcov⟩ hdark => hvf ⟨c, r, hcov, ?_⟩⟩
  · change w.cell c r = s.cell c r
    by_cases hcov : SpriteCovers s (s.reg x) (s.reg y) n.val c r
    · rw [htog' c r hcov, hu, htog c r hcov, Bool.not_not]
    · rw [hkept' c r hcov, hu, hkept c r hcov]
  · rw [hu, htog c r hcov, hdark c r hcov, Bool.not_false]

end Sys2Proof.Machine
end

section
/-! SUPPORT. The timer and key-latch instructions (spec/46_timers_keys.md, rules R170 to R173). Each answers one part
written, but for the read of an empty latch, which answers the state it was given. -/

namespace Sys2Proof.Machine

/-! ## The timers -/

theorem exec_ldDtVx (x : Reg) (s : State) : exec (.ldDtVx x) s = .next { s with dt := s.reg x } := rfl

theorem exec_ldStVx (x : Reg) (s : State) : exec (.ldStVx x) s = .next { s with st := s.reg x } := rfl

/-- TONE sounds exactly while ST is above zero (R28, R188). -/
theorem tone_eq_true_iff (s : State) : s.tone = true ↔ s.st.toNat > 0 :=
  decide_eq_true_iff

/-- Settles O37: the read writes Vx alone, and each of the two sets writes its timer alone, which TONE follows. -/
theorem timerTransfers : Obligations.TimerTransfers :=
  fun x s =>
    ⟨result_of_setReg rfl,
      ⟨_, exec_ldDtVx x s, rfl, exec_frame (exec_ldDtVx x s) rfl fun _ hw => hw⟩,
      ⟨_, exec_ldStVx x s, rfl, tone_eq_true_iff _, exec_frame (exec_ldStVx x s) rfl fun _ hw => hw⟩⟩

/-! ## The latch -/

/-- A key's number fits a byte (R171). -/
theorem toNat_byteOfKey (k : KeyId) : (byteOfKey k).toNat = k.val :=
  (BitVec.toNat_ofNat k.val 8).trans (Nat.mod_eq_of_lt (k.isLt.trans (by decide)))

/-- With a key latched, `LD Vx, K` writes its number to Vx (R171). -/
theorem exec_ldVxK_of_some {s : State} {k : KeyId} (x : Reg) (hl : s.latch = some k) :
    exec (.ldVxK x) s = .next (s.setReg x (byteOfKey k)) := by
  change execLdVxK x s = _
  rw [execLdVxK, hl]

/-- With no key latched, `LD Vx, K` leaves the whole state as it is (the spec's decision D10). -/
theorem exec_ldVxK_of_none {s : State} (x : Reg) (hl : s.latch = none) : exec (.ldVxK x) s = .next s := by
  change execLdVxK x s = _
  rw [execLdVxK, hl]

/-- Settles O38, by the two cases of the latch; each excludes the other's clause. -/
theorem latchReadNeverWaits : Obligations.LatchReadNeverWaits := by
  intro x s
  cases hl : s.latch with
  | none => exact ⟨s, exec_ldVxK_of_none x hl, nofun, fun _ => rfl, Effect.refl.frame⟩
  | some k =>
    obtain ⟨t, hrun, hreg, hframe⟩ := result_of_setReg (exec_ldVxK_of_some x hl)
    refine ⟨t, hrun, fun q hq => ?_, nofun, hframe⟩
    obtain rfl : k = q := Option.some.inj hq
    rw [hreg, toNat_byteOfKey]

end Sys2Proof.Machine
end

section
/-! SUPPORT. The operations of the environment and the observation ports (spec/47_host_ops.md, rules R180 to R188). Each
operation answers one state written out; what it leaves alone is read off the rules of `Effect`. -/

namespace Sys2Proof.Machine

/-! ## RESET -/

/-- Past the last glyph the default table reads 0x00 (R30). -/
theorem unlisted_of_ge {a : Nat} (h : Config.fontLen ≤ a) : Memory.unlisted a = 0 := by
  have hglyph : glyphs.length ≤ a / Config.glyphLen := (Nat.le_div_iff_mul_le (by decide)).mpr h
  rw [Memory.unlisted, fontByte, List.getD_eq_default _ _ hglyph, List.getD_nil]

/-- A byte after RESET: the FONT's, and past its end the one of the unlisted memory (R30, R180). -/
theorem byte_envReset (font : Vector Byte Config.fontLen) (s : State) (a : Nat) :
    (envReset font s).byte a = font.toList.getD a (Memory.unlisted a) := by
  have hlen : 0 + font.toList.length ≤ 4096 := by rw [Vector.length_toList]; decide
  have hbyte := Memory.byteAt_storeFrom Memory.wf_reset hlen a
  rwa [Nat.zero_add] at hbyte

theorem byte_envReset_of_lt (font : Vector Byte Config.fontLen) (s : State) (a : Fin Config.fontLen) :
    (envReset font s).byte a.val = font.get a := by
  have hlt : a.val < font.toList.length := by rw [Vector.length_toList]; exact a.isLt
  rw [byte_envReset, List.getD_eq_getElem _ _ hlt, Vector.getElem_toList, Vector.get_eq_getElem]

theorem byte_envReset_of_ge (font : Vector Byte Config.fontLen) (s : State) {a : Nat} (h : Config.fontLen ≤ a) :
    (envReset font s).byte a = 0 := by
  have hlen : font.toList.length ≤ a := by rwa [Vector.length_toList]
  rw [byte_envReset, List.getD_eq_default _ _ hlen, unlisted_of_ge h]

/-- Settles O47: the banks are filled with one value each, the bytes are those of `byte_envReset`. -/
theorem resetValues : Obligations.ResetValues :=
  fun font s => ⟨Vector.get_replicate 16 0, rfl, rfl, rfl, Vector.get_replicate 16 0, rfl, rfl,
    byte_envReset_of_lt font s, fun _ hge _ => byte_envReset_of_ge font s hge, Framebuffer.cell_blank,
    Vector.get_replicate 16 false, rfl, rfl, rfl⟩

/-! ## LOAD -/

/-- A LOAD writes the bytes it copies and PC, and nothing else (R182, D17). -/
theorem envLoad_frame {rom : List Byte} {s t : State} {r : LoadResult} (h : envLoad rom s = (t, r)) :
    UnchangedOutside (fun p => p = .pc ∨ ∃ k, k < rom.length ∧ p = .byte (Config.romOrigin + k)) s t := by
  obtain ⟨-, hload⟩ | ⟨-, hload⟩ := envLoad_cases rom s <;> cases hload.symm.trans h
  · refine Effect.frame (.trans (.storeFrom ?_) (.setPc (.inl rfl)))
    exact fun k hk => .inr ⟨k, hk, rfl⟩
  · exact Effect.refl.frame

/-- Settles O48, by the two cases of a LOAD: a ROM of at most 3584 bytes from 0x200 ends within memory. -/
theorem loadCopiesTheRom : Obligations.LoadCopiesTheRom := by
  intro rom s hm
  obtain ⟨hle, hload⟩ | ⟨hgt, hload⟩ := envLoad_cases rom s
  · have hr : Config.romOrigin + rom.length ≤ Config.memSize := Nat.add_le_add_left hle Config.romOrigin
    exact ⟨fun _ => ⟨_, hload, rfl, fun k hk => Memory.byteAt_storeFrom_inside hm hr hk, envLoad_frame hload⟩,
      fun hgt => absurd hle (Nat.not_le_of_lt hgt)⟩
  · exact ⟨fun hle => absurd hle (Nat.not_le_of_lt hgt), fun _ => hload⟩

/-! ## TICK -/

/-- One tick takes one from a timer, stopping at zero (R184). -/
theorem toNat_countDown (b : Byte) : (countDown b).toNat = b.toNat - 1 := by
  unfold countDown
  split
  · next hpos =>
      have hone : 1 ≤ b := hpos
      exact BitVec.toNat_sub_of_le hone
  · next hzero => omega

/-- A TICK moves the two timers alone (R184). -/
theorem envTick_frame (s : State) : UnchangedOutside (fun p => p = .dt ∨ p = .st) s (envTick s) :=
  Effect.frame (.trans (.setDt (b := countDown s.dt) (.inl rfl)) (.setSt (b := countDown s.st) (.inr rfl)))

theorem runOps_tick_cons (ops : List Operation) (s : State) : runOps (.tick :: ops) s = runOps ops (envTick s) := rfl

/-- Settles O49, by induction on the number of TICKs: the first takes one from each timer, the rest take the rest. -/
theorem ticksCountDownToZero : Obligations.TicksCountDownToZero := by
  intro k
  induction k with
  | zero => exact fun s => ⟨s, rfl, rfl, rfl, Effect.refl.frame⟩
  | succ k ih =>
    intro s
    obtain ⟨t, hrun, hdt, hst, hframe⟩ := ih (envTick s)
    refine ⟨t, ?_, ?_, ?_, fun p hp => Part.same_trans (envTick_frame s p hp) (hframe p hp)⟩
    · rw [List.replicate_succ, runOps_tick_cons, hrun]
    · rw [hdt, envTick, toNat_countDown, Nat.sub_sub, Nat.add_comm]
    · rw [hst, envTick, toNat_countDown, Nat.sub_sub, Nat.add_comm]

/-! ## KEY_DOWN and KEY_UP -/

/-- A write of KEY and LATCH that moves one key at most changes that key and the latch alone (R185, R186). -/
theorem unchangedOutside_of_keyEvent {s : State} {k : KeyId} {key : Vector Bool 16} {latch : Option KeyId}
    (h : ∀ q, q ≠ k → key.get q = s.keyDown q) :
    UnchangedOutside (fun p => p = .key k ∨ p = .latch) s { s with key := key, latch := latch } := by
  intro p hp
  cases p with
  | key q => exact h q fun he => hp (.inl (congrArg Part.key he))
  | latch => exact absurd (.inr rfl) hp
  | _ => rfl

/-- Settles O50: what a key reads as after each event is `keyDown_envKeyDown` and `keyDown_envKeyUp`. -/
theorem keyEventsSetKeyAndLatch : Obligations.KeyEventsSetKeyAndLatch := by
  intro k s
  have hdown := keyDown_envKeyDown s k
  have hup := keyDown_envKeyUp s k
  exact ⟨⟨(hdown k).trans (if_pos rfl), rfl,
      unchangedOutside_of_keyEvent fun q hq => (hdown q).trans (if_neg hq)⟩,
    (hup k).trans (if_pos rfl), rfl, unchangedOutside_of_keyEvent fun q hq => (hup q).trans (if_neg hq)⟩

/-! ## The observation ports -/

/-- Settles O51: a read answers the state it was given; TONE is `tone_eq_true_iff`. -/
theorem observationsChangeNothing : Obligations.ObservationsChangeNothing :=
  fun s => ⟨⟨_, rfl, fun _ _ => rfl⟩, readStatus s, rfl, rfl, rfl, tone_eq_true_iff s, rfl⟩

end Sys2Proof.Machine
end

section
/-! SUPPORT. The instruction faults (spec/60_exceptions.md, rules R200 to R207). The tables of causes decide which of two
states an instruction answers: the same state with the cause latched, or one in which FAULT was never written. -/

namespace Sys2Proof.Machine

/-! ## Ranges of memory -/

/-- A read of a range that leaves memory ends the instruction, whatever it does with the bytes (R58, R201). -/
theorem commit_read_of_rangeFaults (m : Memory) (use : List Byte → State) (s : State) {a n : Nat}
    (h : rangeFaults a n = true) :
    commit ((memReadRange m a n).map use) s = .next { s with fault := some .outOfBounds } := by
  rw [memReadRange, if_pos h]
  rfl

/-- A store to a range that leaves memory ends the instruction with no byte stored (R58, R201). -/
theorem commit_store_of_rangeFaults (s : State) {a : Nat} {bs : List Byte} (h : rangeFaults a bs.length = true) :
    commit (memWriteRange a bs s) s = .next { s with fault := some .outOfBounds } := by
  rw [memWriteRange, if_pos h, commit_error]

/-! ## Every instruction -/

/-- FAULT is in no instruction's list of writers: a fault alone sets it (R35, R206). -/
theorem not_writesOf_fault (i : Instr) (s : State) : ¬ writesOf i s .fault := by
  cases i <;> simp [writesOf]

/-- An instruction whose cause the tables list latches that cause and commits nothing else (R206, R207): each of the six
arms that can fault ends in `commit`, and the check it makes first is the condition of its table. -/
theorem exec_of_faultIn {i : Instr} {s : State} {f : Fault} (h : faultIn i s = some f) :
    exec i s = .next { s with fault := some f } := by
  cases i with
  | ret =>
    obtain ⟨hsp, rfl⟩ : s.sp.val = 0 ∧ .stackUnderflow = f := by simpa [faultIn] using h
    change commit (stackPopToPc s) s = _
    rw [stackPopToPc_empty hsp, commit_error]
  | call nnn =>
    obtain ⟨hsp, rfl⟩ : s.sp.val = 16 ∧ .stackOverflow = f := by simpa [faultIn] using h
    change commit ((stackPush s.pc s).map fun t => { t with pc := addressOf nnn }) s = _
    rw [stackPush_full s.pc hsp]
    rfl
  | drw x y n =>
    obtain ⟨hr, rfl⟩ : rangeFaults (s.ea 0) n.val = true ∧ .outOfBounds = f := by
      simpa [faultIn, rangeFaults, State.ea] using h
    exact commit_read_of_rangeFaults s.mem _ s hr
  | ldBVx x =>
    obtain ⟨hr, rfl⟩ : rangeFaults (s.ea 0) (bcdDigits (s.reg x)).length = true ∧ .outOfBounds = f := by
      simpa [faultIn, rangeFaults, State.ea] using h
    exact commit_store_of_rangeFaults s hr
  | ldMemVx x =>
    obtain ⟨hr, rfl⟩ : rangeFaults (s.ea 0) (s.regsUpTo x).length = true ∧ .outOfBounds = f := by
      simpa [faultIn, rangeFaults, State.ea] using h
    exact commit_store_of_rangeFaults s hr
  | ldVxMem x =>
    obtain ⟨hr, rfl⟩ : rangeFaults (s.ea 0) (x.val + 1) = true ∧ .outOfBounds = f := by
      simpa [faultIn, rangeFaults, State.ea] using h
    exact commit_read_of_rangeFaults s.mem _ s hr
  | _ => exact nomatch h

/-- Settles O40, by what the tables say: with a cause listed, `exec_of_faultIn` gives the next state; with none, FAULT is
outside what the instruction may write. -/
theorem faultsExactlyWhereListed : Obligations.FaultsExactlyWhereListed := by
  intro i s hnone
  cases hf : faultIn i s with
  | some f => exact ⟨_, exec_of_faultIn hf, rfl, fun _ => (Effect.setFault (writes := (· = .fault)) rfl).frame⟩
  | none =>
    obtain ⟨t, ht⟩ := exec_next i s
    have hkept : t.fault = s.fault :=
      exec_frame ht hf (fun _ hw => hw) .fault (not_writesOf_fault i s)
    exact ⟨t, ht, hkept.trans hnone, fun hne => absurd rfl hne⟩

end Sys2Proof.Machine
end
